-- ==== Sys2Proof/Word.lean ====
section
/-! DEFINITION. The widths of the block's registers, cells and fields, and how a vector of bits is read as a number
(00_scope.md R7, R8). -/

namespace Sys2Proof

/-- One byte cell, one 8-bit register or one u8/i8 field. -/
abbrev Byte := BitVec 8

/-- One 16-bit register or one u16/i16 field. -/
abbrev Half := BitVec 16

/-- One 32-bit register or one u32/i32 field. -/
abbrev Word := BitVec 32

/-- R8: the unsigned number a vector stands for. -/
abbrev uint {w : Nat} (v : BitVec w) : Nat := v.toNat

/-- R8: the two's-complement number a vector stands for. -/
abbrev sint {w : Nat} (v : BitVec w) : Int := v.toInt

/-- R8: `zext_N(v)`. -/
abbrev zext {w : Nat} (n : Nat) (v : BitVec w) : BitVec n := v.setWidth n

/-- R8: `sext_N(v)`. No rule of the block uses it (R29: a register holds the field's bits with no sign extension);
a reader of a narrow signed field does. -/
abbrev sext {w : Nat} (n : Nat) (v : BitVec w) : BitVec n := v.signExtend n

/-- R8: an integer as a vector of width `n`, that is `x mod 2^n`. -/
abbrev ofInteger (n : Nat) (x : Int) : BitVec n := BitVec.ofInt n x

end Sys2Proof
end

