-- ==== Sys2Proof/Syntax.lean ====
section
/-! DEFINITION. What the host can say to the block: the twelve operations of the opcode map (30_encoding.md R71), the
five host operations (92_eei_decisions.md D2), the registers a host can name (10_state.md R20), and the lines of the
assembly syntax (30_encoding.md R93, R94). -/

namespace Sys2Proof

/-- The operations of 30_encoding.md R71, one constructor for each row of the opcode table. No operand stands in the OP:
the operands are fields of ARG0..ARG2 and, for a decode, RX_LEN and RX (R70, R72). -/
inductive Instr where
  /-- PACK.SPLIT, 40_register_pair.md R100 -/
  | packSplit
  /-- UNPACK.S32, R101 -/
  | unpackS32
  /-- UNPACK.U32, R102 -/
  | unpackU32
  /-- ENC.HSS, 41_high_speed_stream.md R120 -/
  | encHss
  /-- DEC.HSS.U8, R121 -/
  | decHssU8
  /-- DEC.HSS.U32, R122 -/
  | decHssU32
  /-- ENC.MCS, 42_motor_command_stream.md R140 -/
  | encMcs
  /-- DEC.MCS, R141 -/
  | decMcs
  /-- ENC.MRS, 43_motor_read_stream.md R160 -/
  | encMrs
  /-- DEC.MRS, R161 -/
  | decMrs
  /-- ENC.MWS, 44_motor_write_stream.md R180 -/
  | encMws
  /-- DEC.MWS, R181 -/
  | decMws
  deriving DecidableEq, Repr

/-- The result registers, cell by cell: what a command clears and what a body may write (R28, R29, R31). -/
inductive ResultReg where
  | txFc | txLen | tx (i : Fin 8)
  | rLow | rHigh | rValue | rState | rBaud | rDelay | rRegval | rMode
  | rPos | rForce | rPower | rTemp | rVolt | rErrs
  deriving DecidableEq, Repr

/-- Everything `HostRead` can name: each whole register and each buffer cell (R22, R23, R24, R33, R59). A name outside
these cannot be written down (R50, R58). -/
inductive HostReg where
  | arg (i : Fin 3)
  | rxLen
  | rx (i : Fin 256)
  | status
  | result (r : ResultReg)
  deriving DecidableEq, Repr

/-- The five host operations (92_eei_decisions.md D2; widths R59). -/
inductive HostOp where
  | writeArg (i : Fin 3) (v : Word)
  | writeRx (i : Fin 256) (b : Byte)
  | writeRxLen (n : Byte)
  | issue (op : Byte)
  | read (r : HostReg)
  deriving DecidableEq, Repr

/-- What reaches the block from outside, one at a time: a host operation (R62), or a reset applied by the platform
(R230), which falls between two host operations because each of those is atomic (R59, R240). -/
inductive Event where
  | host (o : HostOp)
  | reset
  deriving DecidableEq, Repr

/-- The operand keys of 30_encoding.md R93 that write an ARG register (`rx=` writes none and stands apart). -/
inductive Key where
  | value | low | high | enable | baud | delay | sub | data | addr | width
  deriving DecidableEq, Repr

/-- A command line: the operation, its ARG operands in the order written with the integer given for each, and the bytes
of `rx=[...]` where the line has it. An operand left out is absent from the list (R93). -/
structure Command where
  instr : Instr
  args : List (Key × Int)
  rx : Option (List Nat)
  deriving DecidableEq, Repr

/-- The pseudo-commands of 30_encoding.md R94. An operand may be left out, as in every command line (R93). -/
inductive Pseudo where
  | encHssOn (baud delay : Option Int)
  | encHssOff (baud delay : Option Int)
  | encMrs16 (addr : Option Int)
  | encMrs32 (addr : Option Int)
  | decMrs16 (rx : Option (List Nat))
  | decMrs32 (rx : Option (List Nat))
  | encMws16 (addr data : Option Int)
  | encMws32 (addr data : Option Int)
  deriving DecidableEq, Repr

/-- A line of 30_encoding.md R93: a command, a pseudo-command (R94), one of the five host-only lines, or a comment. The
numbers of the host-only lines are as written; WellFormed.lean says which are legal. -/
inductive Line where
  | command (c : Command)
  | pseudo (p : Pseudo)
  /-- `ARGi = v` -/
  | setArg (i : Nat) (v : Int)
  /-- `RX[i] = b` -/
  | setRx (i : Nat) (b : Int)
  /-- `RXLEN = n` -/
  | setRxLen (n : Int)
  /-- `ISSUE op` -/
  | issueOp (op : Int)
  /-- `READ reg` -/
  | readReg (r : HostReg)
  /-- a line beginning with `;` -/
  | comment
  deriving DecidableEq, Repr

end Sys2Proof
end

