-- ==== Sys2Proof/WellFormed.lean ====
section
/-! DEFINITION. Which terms are legal. An operation has no operand field, so every `Instr` is well formed; what can be
ill formed is a line of assembly: a key that its mnemonic does not have, a list of bytes where none belongs, a number
outside the range its place holds (30_encoding.md R93, 40_register_pair.md R105). -/

namespace Sys2Proof

/-- R70, R71: an operation is its OP byte alone and carries no operand, so there is nothing to check. -/
def Instr.wellFormed (_ : Instr) : Bool := true

/-- The table of 30_encoding.md R93: which ARG register a key of a mnemonic writes; none where the mnemonic does not
have the key. -/
def Instr.keyArg : Instr → Key → Option (Fin 3)
  | .packSplit, .value => some 0
  | .unpackS32, .low => some 0
  | .unpackS32, .high => some 1
  | .unpackU32, .low => some 0
  | .unpackU32, .high => some 1
  | .encHss, .enable => some 0
  | .encHss, .baud => some 1
  | .encHss, .delay => some 2
  | .encMcs, .sub => some 0
  | .encMcs, .data => some 1
  | .encMrs, .addr => some 0
  | .encMrs, .width => some 1
  | .decMrs, .width => some 1
  | .encMws, .addr => some 0
  | .encMws, .width => some 1
  | .encMws, .data => some 2
  | _, _ => none

/-- R93: the mnemonics whose row has `rx=`, which are the five decode operations. -/
def Instr.takesRx : Instr → Bool
  | .decHssU8 | .decHssU32 | .decMcs | .decMrs | .decMws => true
  | .packSplit | .unpackS32 | .unpackU32 | .encHss | .encMcs | .encMrs | .encMws => false

/-- The packer family, whose rule R105 refuses an integer that no 32-bit operand stands for, where R93 would convert it
by `x mod 2^32`: that these three lines follow R105 is a DESIGN CHOICE (log 6). -/
def Instr.isPacker : Instr → Bool
  | .packSplit | .unpackS32 | .unpackU32 => true
  | .encHss | .decHssU8 | .decHssU32 | .encMcs | .decMcs | .encMrs | .decMrs | .encMws | .decMws => false

/-- R105: "an integer outside -2^31 .. 2^32 - 1 cannot be an operand at all". -/
def operandInteger (x : Int) : Bool := decide (-2147483648 ≤ x) && decide (x ≤ 4294967295)

/-- A written byte: 0..255. -/
def byteInteger (x : Int) : Bool := decide (0 ≤ x) && decide (x ≤ 255)

/-- The bytes of `rx=[b0 b1 ... bn-1]`: each a byte, and n a value RX_LEN can hold (R23: 0..255). -/
def rxWellFormed (bs : List Nat) : Bool := decide (bs.length ≤ 255) && bs.all fun b => decide (b ≤ 255)

/-- A command line uses only its mnemonic's keys (R93), an integer in range where R105 asks for one, and `rx=` only on
a decode. -/
def Command.wellFormed (c : Command) : Bool :=
  (c.args.all fun a => (c.instr.keyArg a.1).isSome && (!c.instr.isPacker || operandInteger a.2)) &&
  match c.rx with
  | none => true
  | some bs => c.instr.takesRx && rxWellFormed bs

/-- A pseudo-command is legal where its bytes are (its keys are fixed by its form, R94). -/
def Pseudo.wellFormed : Pseudo → Bool
  | .encHssOn _ _ | .encHssOff _ _ | .encMrs16 _ | .encMrs32 _ | .encMws16 _ _ | .encMws32 _ _ => true
  | .decMrs16 rx | .decMrs32 rx => match rx with
    | none => true
    | some bs => rxWellFormed bs

/-- The lines of R93: an index names an existing register or cell (R22: 0..2; R24: 0..255), and a number written to an
8-bit place is a byte (R23, R59, R70). -/
def Line.wellFormed : Line → Bool
  | .command c => c.wellFormed
  | .pseudo p => p.wellFormed
  | .setArg i _ => decide (i < 3)
  | .setRx i b => decide (i < 256) && byteInteger b
  | .setRxLen n => byteInteger n
  | .issueOp op => byteInteger op
  | .readReg _ => true
  | .comment => true

end Sys2Proof
end

