-- ==== Sys2Proof/Decode.lean ====
section
/-! DEFINITION. The OP byte: its decoder, which is total and rejects by name, its encoder, and the mnemonics
(30_encoding.md R70, R71, R75, R76, R94). -/

namespace Sys2Proof

/-- Why a byte sequence starts with no operation. The block itself answers both illegal kinds with IllegalOperation
(R75, R76); the names are the decoder's. -/
inductive DecodeReject where
  /-- there is no byte -/
  | noByte
  /-- 0x13, reserved for the 2-field FC 65 layout, which no source lays out (R76) -/
  | reservedTwoField
  /-- any other OP outside the table of R71 (R75) -/
  | illegalOp (op : Byte)
  deriving DecidableEq, Repr

/-- 30_encoding.md R71: "a decoder matches all 8 bits". -/
def decodeOp (op : Byte) : Except DecodeReject Instr :=
  match op with
  | 0x01#8 => .ok .packSplit
  | 0x02#8 => .ok .unpackS32
  | 0x03#8 => .ok .unpackU32
  | 0x10#8 => .ok .encHss
  | 0x11#8 => .ok .decHssU8
  | 0x12#8 => .ok .decHssU32
  | 0x13#8 => .error .reservedTwoField
  | 0x20#8 => .ok .encMcs
  | 0x21#8 => .ok .decMcs
  | 0x30#8 => .ok .encMrs
  | 0x31#8 => .ok .decMrs
  | 0x40#8 => .ok .encMws
  | 0x41#8 => .ok .decMws
  | other => .error (.illegalOp other)

/-- The operation a byte sequence starts with, and the bytes after it: every command is one OP byte (R70). -/
def decode : List Byte → Except DecodeReject (Instr × List Byte)
  | [] => .error .noByte
  | op :: rest => match decodeOp op with
    | .ok i => .ok (i, rest)
    | .error e => .error e

/-- The OP column of R71. -/
def opcode : Instr → Byte
  | .packSplit => 0x01#8
  | .unpackS32 => 0x02#8
  | .unpackU32 => 0x03#8
  | .encHss => 0x10#8
  | .decHssU8 => 0x11#8
  | .decHssU32 => 0x12#8
  | .encMcs => 0x20#8
  | .decMcs => 0x21#8
  | .encMrs => 0x30#8
  | .decMrs => 0x31#8
  | .encMws => 0x40#8
  | .decMws => 0x41#8

/-- The bytes of an operation: its OP alone (R70). -/
def encode (i : Instr) : List Byte := [opcode i]

/-- The mnemonic column of R71. -/
def mnemonic : Instr → String
  | .packSplit => "PACK.SPLIT"
  | .unpackS32 => "UNPACK.S32"
  | .unpackU32 => "UNPACK.U32"
  | .encHss => "ENC.HSS"
  | .decHssU8 => "DEC.HSS.U8"
  | .decHssU32 => "DEC.HSS.U32"
  | .encMcs => "ENC.MCS"
  | .decMcs => "DEC.MCS"
  | .encMrs => "ENC.MRS"
  | .decMrs => "DEC.MRS"
  | .encMws => "ENC.MWS"
  | .decMws => "DEC.MWS"

/-- R94: "A disassembler prints a command as its mnemonic". -/
def disassemble (op : Byte) : Except DecodeReject String :=
  match decodeOp op with
  | .ok i => .ok (mnemonic i)
  | .error e => .error e

/-- R71 as a list, in its order. -/
def allInstrs : List Instr :=
  [.packSplit, .unpackS32, .unpackU32, .encHss, .decHssU8, .decHssU32,
   .encMcs, .decMcs, .encMrs, .decMrs, .encMws, .decMws]

/-- The OP byte of an instruction whose table bits are `w`: bits 7..0, the bits from `nbits` up being zero. An
instruction is never longer than one byte (R70). -/
def tableByte (nbits w : Nat) : Byte := BitVec.ofNat 8 (w % 2 ^ nbits)

/-- The instruction the decoder reads from an opcode-table word. -/
def decodeTableWord (nbits w : Nat) : Option Instr :=
  match decode [tableByte nbits w] with
  | .ok (i, _) => some i
  | .error _ => none

end Sys2Proof
end

