-- ==== Sys2Proof/Machine/State.lean ====
section
/-! DEFINITION. The state of the block, as plain data (10_state.md R20 and its tables), the reasons a command or a step
can end early, and the state after reset (R34). -/

namespace Sys2Proof.Machine

/-- Why a step stops. -/
inductive Fault where
  /-- `UNWRITTEN_INPUT` (10_state.md R25, 92_eei_decisions.md D28): a command, or a `HostRead`, reads an RX cell that
  nothing has written since reset. Raised by `rxCell` and `readReg` alone. Safe: hardware would go on with an unspecified value, and
  nothing can be proved of a run that stops here (log 2). -/
  | unwrittenInput
  deriving DecidableEq, Repr

/-- Why a step has no meaning. -/
inductive Refusal where
  /-- The instruction has no meaning in this model. No arm of `exec` answers so. Safe. -/
  | notModelled (mnemonic : String)
  deriving DecidableEq, Repr

/-- The operand fields an ArgumentError can name (00_scope.md R9, 43_motor_read_stream.md R160). -/
inductive ArgField where
  | registerWidth
  deriving DecidableEq, Repr

/-- The errors of 60_exceptions.md R200, with the arguments that `raise` gives them (00_scope.md R9). An error is a next
state, not a stop (R207). -/
inductive CmdError where
  | frameLength (expected got : Nat)
  | illegalOperation (op : Byte)
  | argument (field : ArgField)
  deriving DecidableEq, Repr

/-- Why an operation body ends without results: an error the block reports, or a fault of the model. -/
inductive Halt where
  | raised (e : CmdError)
  | fault (f : Fault)
  deriving DecidableEq, Repr

/-- One result-register write of a body (30_encoding.md R74), at the register's own width (R28, R29). -/
inductive ResultWrite where
  | txFc (v : Byte) | txLen (v : Byte) | tx (i : Fin 8) (v : Byte)
  | rLow (v : Half) | rHigh (v : Half) | rValue (v : Word)
  | rState (v : Word) | rBaud (v : Word) | rDelay (v : Half)
  | rRegval (v : Word) | rMode (v : Byte)
  | rPos (v : Word) | rForce (v : Word) | rPower (v : Half) | rTemp (v : Byte) | rVolt (v : Half) | rErrs (v : Half)
  deriving DecidableEq, Repr

/-- What `Body(op)` of 30_encoding.md R74 answers: "either an error code or a list of result-register writes". -/
abbrev Body := Except Halt (List ResultWrite)

/-- What `HostRead` returns: the register or cell at its own width (20_memory.md R59). -/
inductive HostValue where
  | byte (v : Byte) | half (v : Half) | word (v : Word)
  deriving DecidableEq, Repr

/-- A sparse byte memory in canonical form: addresses strictly rising (`Memory.wf`). An unlisted address has no value,
so no listed entry equals what an unlisted address reads as. -/
abbrev Memory := List Host.Cell

/-- The input state, which the host writes and no command does (R22 to R24). A body sees this and nothing else (R74). -/
structure Inputs where
  /-- ARG0, ARG1, ARG2 (R22) -/
  args : Vector Word 3
  /-- RX_LEN (R23) -/
  rxLen : Byte
  /-- RX[0..255] (R24); an unlisted cell has not been written since reset (R25) -/
  rx : Memory
  deriving DecidableEq, Repr

/-- The result state (R28, R29). -/
structure Results where
  txFc : Byte
  txLen : Byte
  tx : Vector Byte 8
  rLow : Half
  rHigh : Half
  rValue : Word
  rState : Word
  rBaud : Word
  rDelay : Half
  rRegval : Word
  rMode : Byte
  rPos : Word
  rForce : Word
  rPower : Half
  rTemp : Byte
  rVolt : Half
  rErrs : Half
  deriving DecidableEq, Repr

/-- All result state zero: at reset (R34) and whenever a command clears it (R31). -/
def Results.cleared : Results where
  txFc := 0
  txLen := 0
  tx := #v[0, 0, 0, 0, 0, 0, 0, 0]
  rLow := 0
  rHigh := 0
  rValue := 0
  rState := 0
  rBaud := 0
  rDelay := 0
  rRegval := 0
  rMode := 0
  rPos := 0
  rForce := 0
  rPower := 0
  rTemp := 0
  rVolt := 0
  rErrs := 0

/-- The whole machine: the architectural state of R20 (`inp`, `status`, `res`), and three fields of the model's own. -/
structure State where
  inp : Inputs
  /-- STATUS (R26) -/
  status : Word
  res : Results
  /-- The model's: ARGi has been written by the host since reset (R25, R232). No meaning reads it (log 1). -/
  argWritten : Vector Bool 3
  /-- The model's: what reaches the block from outside, next first (R62, R247; log 3). -/
  pending : List Event
  /-- The model's: what `HostRead` has returned to the host, oldest first (R62; log 4). -/
  hostReads : List HostValue
  deriving DecidableEq, Repr

/-- The input state after reset: RX_LEN 0 and no RX cell holding a value (R34). ARG0..ARG2: R34 gives them no value; the
model gives 0 (DESIGN CHOICE, unsafe, log 1). -/
def Inputs.reset : Inputs where
  args := #v[0, 0, 0]
  rxLen := 0
  rx := []

/-- The machine right after reset (R34, R230). No host operation is pending (log 3). -/
def State.reset : State where
  inp := Inputs.reset
  status := 0
  res := Results.cleared
  argWritten := #v[false, false, false]
  pending := []
  hostReads := []

end Sys2Proof.Machine
end

