-- ==== Sys2Proof/Machine/Flags.lean ====
section
/-! DEFINITION. STATUS: its fields, the error codes, and the word that a command writes to it (10_state.md R26, R27,
30_encoding.md R74, 60_exceptions.md R200). The block has no other flag (R35). -/

namespace Sys2Proof.Machine

/-- The ERR code of each error, 60_exceptions.md R200. -/
def errorCode : CmdError → BitVec 4
  | .frameLength _ _ => 1
  | .illegalOperation _ => 2
  | .argument _ => 3

/-- R74: `zext_32({op[7:0], err[3:0], 2'b00, (err == 0), 1'b1})`. -/
def statusWord (op : Byte) (err : BitVec 4) : Word :=
  zext 32 (op ++ err ++ 0#2 ++ BitVec.ofBool (err == 0) ++ 1#1)

/-- STATUS.DONE, bit 0 (R26). -/
def statusDone (st : Word) : Bool := st.getLsbD 0

/-- STATUS.OK, bit 1 (R26). -/
def statusOk (st : Word) : Bool := st.getLsbD 1

/-- STATUS.ERR, bits 7:4 (R26). -/
def statusErr (st : Word) : BitVec 4 := st.extractLsb' 4 4

/-- STATUS.LASTOP, bits 15:8 (R26). -/
def statusLastOp (st : Word) : Byte := st.extractLsb' 8 8

/-- The reserved bits 3:2 (R26). -/
def statusReservedLow (st : Word) : BitVec 2 := st.extractLsb' 2 2

/-- The reserved bits 31:16 (R26). -/
def statusReservedHigh (st : Word) : Half := st.extractLsb' 16 16

end Sys2Proof.Machine
end

