-- ==== Sys2Proof/Machine/Ops.lean ====
section
/-! DEFINITION. The shared operations: the byte memory behind RX, MemRead and MemWrite (20_memory.md R52, R53), the
result-register writes and the common command frame (30_encoding.md R74) with the raising of an error beside it
(60_exceptions.md R207), and the host's own reads and writes (20_memory.md R59, R60). An error has no return operation
(60_exceptions.md R208). -/

namespace Sys2Proof.Machine

/-- The byte listed at an address; none where nothing has been written. -/
def Memory.read : Memory → Nat → Option Byte
  | [], _ => none
  | (c, b) :: rest, a => if c = a then some b else Memory.read rest a

/-- A write, in the canonical form: the address keeps one entry, at its place in the rising order. -/
def Memory.write : Memory → Nat → Byte → Memory
  | [], a, v => [(a, v)]
  | (c, b) :: rest, a, v =>
    if a < c then (a, v) :: (c, b) :: rest
    else if a = c then (a, v) :: rest
    else (c, b) :: Memory.write rest a v

/-- The canonical form of RX: addresses strictly rising, and each an index of R50 (0..255). -/
abbrev Memory.wf (m : Memory) : Prop := m.Pairwise (fun c d => c.1 < d.1) ∧ ∀ c ∈ m, c.1 < 256

/-- RX[k] as an operation sees it: a cell that has not been written since reset faults (R25). -/
def rxCell (inp : Inputs) (k : Fin 256) : Except Halt Byte :=
  match Memory.read inp.rx k.val with
  | some b => .ok b
  | none => .error (.fault .unwrittenInput)

/-- `MemRead(off, 1)` (R52, R54). -/
def memRead1 (inp : Inputs) (off : Nat) (h : off + 1 ≤ 256 := by decide) : Except Halt Byte :=
  rxCell inp ⟨off, by omega⟩

/-- `MemRead(off, 2)` = `{RX[off], RX[off+1]}` (R52). -/
def memRead2 (inp : Inputs) (off : Nat) (h : off + 2 ≤ 256 := by decide) : Except Halt Half := do
  let b0 ← rxCell inp ⟨off, by omega⟩
  let b1 ← rxCell inp ⟨off + 1, by omega⟩
  return b0 ++ b1

/-- `MemRead(off, 4)` = `{RX[off], RX[off+1], RX[off+2], RX[off+3]}` (R52). -/
def memRead4 (inp : Inputs) (off : Nat) (h : off + 4 ≤ 256 := by decide) : Except Halt Word := do
  let b0 ← rxCell inp ⟨off, by omega⟩
  let b1 ← rxCell inp ⟨off + 1, by omega⟩
  let b2 ← rxCell inp ⟨off + 2, by omega⟩
  let b3 ← rxCell inp ⟨off + 3, by omega⟩
  return b0 ++ b1 ++ b2 ++ b3

/-- `MemWrite(off, 1, v)` (R53), as the list of its TX cell writes. -/
def memWrite1 (off : Nat) (v : Byte) (h : off + 1 ≤ 8 := by decide) : List ResultWrite :=
  [.tx ⟨off, by omega⟩ v]

/-- `MemWrite(off, 2, v)`: `TX[off]` gets the most significant byte (R53). -/
def memWrite2 (off : Nat) (v : Half) (h : off + 2 ≤ 8 := by decide) : List ResultWrite :=
  [.tx ⟨off, by omega⟩ (v.extractLsb' 8 8), .tx ⟨off + 1, by omega⟩ (v.extractLsb' 0 8)]

/-- `MemWrite(off, 4, v)` (R53). -/
def memWrite4 (off : Nat) (v : Word) (h : off + 4 ≤ 8 := by decide) : List ResultWrite :=
  [.tx ⟨off, by omega⟩ (v.extractLsb' 24 8), .tx ⟨off + 1, by omega⟩ (v.extractLsb' 16 8),
   .tx ⟨off + 2, by omega⟩ (v.extractLsb' 8 8), .tx ⟨off + 3, by omega⟩ (v.extractLsb' 0 8)]

/-- The register a write names. -/
def ResultWrite.reg : ResultWrite → ResultReg
  | .txFc _ => .txFc
  | .txLen _ => .txLen
  | .tx i _ => .tx i
  | .rLow _ => .rLow
  | .rHigh _ => .rHigh
  | .rValue _ => .rValue
  | .rState _ => .rState
  | .rBaud _ => .rBaud
  | .rDelay _ => .rDelay
  | .rRegval _ => .rRegval
  | .rMode _ => .rMode
  | .rPos _ => .rPos
  | .rForce _ => .rForce
  | .rPower _ => .rPower
  | .rTemp _ => .rTemp
  | .rVolt _ => .rVolt
  | .rErrs _ => .rErrs

/-- One result-register write. -/
def applyWrite (r : Results) : ResultWrite → Results
  | .txFc v => { r with txFc := v }
  | .txLen v => { r with txLen := v }
  | .tx i v => { r with tx := r.tx.set i v }
  | .rLow v => { r with rLow := v }
  | .rHigh v => { r with rHigh := v }
  | .rValue v => { r with rValue := v }
  | .rState v => { r with rState := v }
  | .rBaud v => { r with rBaud := v }
  | .rDelay v => { r with rDelay := v }
  | .rRegval v => { r with rRegval := v }
  | .rMode v => { r with rMode := v }
  | .rPos v => { r with rPos := v }
  | .rForce v => { r with rForce := v }
  | .rPower v => { r with rPower := v }
  | .rTemp v => { r with rTemp := v }
  | .rVolt v => { r with rVolt := v }
  | .rErrs v => { r with rErrs := v }

/-- R74: "perform every write in out". -/
def applyWrites (r : Results) (out : List ResultWrite) : Results := out.foldl applyWrite r

/-- How a failed command ends, which is all that "taking an exception" is here (R207): every result register 0 (R31),
OK = 0, ERR the code, LASTOP the OP (R27); nothing else is saved or changed. -/
def raiseError (op : Byte) (e : CmdError) (s : State) : State :=
  { s with res := Results.cleared, status := statusWord op (errorCode e) }

/-- How a successful command ends: results cleared, then the body's writes, OK = 1 and ERR = 0 (R31, R74). -/
def complete (op : Byte) (out : List ResultWrite) (s : State) : State :=
  { s with res := applyWrites Results.cleared out, status := statusWord op 0 }

/-- The frame of `HostIssue(op)` around a body's answer (R74), in one step (R240). -/
def commandFrame (op : Byte) (body : Body) (s : State) : Host.Outcome State Fault Refusal :=
  match body with
  | .ok out => .next (complete op out s)
  | .error (.raised e) => .next (raiseError op e s)
  | .error (.fault f) => .fault f

/-- An OP outside the table: "reads no ARG register and no RX cell, writes no result" (R75, R202). -/
def illegalOperation (op : Byte) (s : State) : Host.Outcome State Fault Refusal :=
  commandFrame op (.error (.raised (.illegalOperation op))) s

/-- `HostWriteArg(i, v)` (R22). The mark is the model's (log 1). -/
def hostWriteArg (i : Fin 3) (v : Word) (s : State) : State :=
  { s with inp := { s.inp with args := s.inp.args.set i v }, argWritten := s.argWritten.set i true }

/-- `HostWriteRx(i, b)` (R24). -/
def hostWriteRx (i : Fin 256) (b : Byte) (s : State) : State :=
  { s with inp := { s.inp with rx := Memory.write s.inp.rx i.val b } }

/-- `HostWriteRxLen(n)` (R23). -/
def hostWriteRxLen (n : Byte) (s : State) : State := { s with inp := { s.inp with rxLen := n } }

/-- A result register at its width (R28, R29, R33). -/
def readResult (r : Results) : ResultReg → HostValue
  | .txFc => .byte r.txFc
  | .txLen => .byte r.txLen
  | .tx i => .byte r.tx[i]
  | .rLow => .half r.rLow
  | .rHigh => .half r.rHigh
  | .rValue => .word r.rValue
  | .rState => .word r.rState
  | .rBaud => .word r.rBaud
  | .rDelay => .half r.rDelay
  | .rRegval => .word r.rRegval
  | .rMode => .byte r.rMode
  | .rPos => .word r.rPos
  | .rForce => .word r.rForce
  | .rPower => .half r.rPower
  | .rTemp => .byte r.rTemp
  | .rVolt => .half r.rVolt
  | .rErrs => .half r.rErrs

/-- The value of a named register or cell (R59). An RX cell that has not been written has none (R25, log 2). -/
def readReg (s : State) : HostReg → Except Fault HostValue
  | .arg i => .ok (.word s.inp.args[i])
  | .rxLen => .ok (.byte s.inp.rxLen)
  | .rx i => match Memory.read s.inp.rx i.val with
    | some b => .ok (.byte b)
    | none => .error .unwrittenInput
  | .status => .ok (.word s.status)
  | .result r => .ok (readResult s.res r)

/-- `HostRead(reg)`: no effect on any register or buffer (R60); the value goes to the host (log 4). -/
def hostRead (r : HostReg) (s : State) : Host.Outcome State Fault Refusal :=
  match readReg s r with
  | .ok v => .next { s with hostReads := s.hostReads ++ [v] }
  | .error f => .fault f

/-- A reset applied by the platform (R230): every state element of the block at its value of R34. What the host has
pending, and what it has been answered, is the host's and stays. -/
def platformReset (s : State) : State := { State.reset with pending := s.pending, hostReads := s.hostReads }

end Sys2Proof.Machine
end

