-- ==== Sys2Proof/Machine/Operands.lean ====
section
/-! DEFINITION. The operand fields of 30_encoding.md R72, the checks of R86 and 43_motor_read_stream.md R160, and the
telemetry tail that three responses share (R83). -/

namespace Sys2Proof.Machine

/-- `value` of PACK.SPLIT: ARG0[31:0]. -/
def opValue (inp : Inputs) : Word := inp.args[0]

/-- `low` of UNPACK: ARG0[15:0]. -/
def opLow (inp : Inputs) : Half := inp.args[0].extractLsb' 0 16

/-- `high` of UNPACK: ARG1[15:0]. -/
def opHigh (inp : Inputs) : Half := inp.args[1].extractLsb' 0 16

/-- `enable` of ENC.HSS: the single bit ARG0[0] (R73). -/
def opEnable (inp : Inputs) : BitVec 1 := inp.args[0].extractLsb' 0 1

/-- `baud` of ENC.HSS: ARG1[31:0]. -/
def opBaud (inp : Inputs) : Word := inp.args[1]

/-- `delay` of ENC.HSS: ARG2[15:0]. -/
def opDelay (inp : Inputs) : Half := inp.args[2].extractLsb' 0 16

/-- `sub` of ENC.MCS: ARG0[7:0]. -/
def opSub (inp : Inputs) : Byte := inp.args[0].extractLsb' 0 8

/-- `data` of ENC.MCS: ARG1[31:0]. -/
def opCommandData (inp : Inputs) : Word := inp.args[1]

/-- `addr` of ENC.MRS and ENC.MWS: ARG0[15:0]. -/
def opAddr (inp : Inputs) : Half := inp.args[0].extractLsb' 0 16

/-- `width` of ENC.MRS, DEC.MRS and ENC.MWS: ARG1[7:0]. -/
def opWidth (inp : Inputs) : Byte := inp.args[1].extractLsb' 0 8

/-- `data` of ENC.MWS: ARG2[31:0]. -/
def opWriteData (inp : Inputs) : Word := inp.args[2]

/-- `if width != 1 and width != 2: raise ArgumentError(register_width)` (R160, R161, R180). -/
def checkWidth (width : Byte) : Except Halt Unit :=
  if width = 1 ∨ width = 2 then .ok () else .error (.raised (.argument .registerWidth))

/-- `CheckLen(E)` (R86). -/
def checkLen (inp : Inputs) (size : Nat) : Except Halt Unit :=
  if uint inp.rxLen < size then .error (.raised (.frameLength size (uint inp.rxLen))) else .ok ()

/-- `DecodeTail(b)` (R83). -/
def decodeTail (inp : Inputs) (b : Nat) (h : b + 15 ≤ 256 := by decide) : Body := do
  let pos ← memRead4 inp (b + 0) (by omega)
  let force ← memRead4 inp (b + 4) (by omega)
  let power ← memRead2 inp (b + 8) (by omega)
  let temp ← memRead1 inp (b + 10) (by omega)
  let volt ← memRead2 inp (b + 11) (by omega)
  let errs ← memRead2 inp (b + 13) (by omega)
  return [.rPos pos, .rForce force, .rPower power, .rTemp temp, .rVolt volt, .rErrs errs]

end Sys2Proof.Machine
end

