-- ==== Sys2Proof/Machine/HighSpeed.lean ====
section
/-! DEFINITION. ManageHighSpeedStream, function code 65 (41_high_speed_stream.md): ENC.HSS, DEC.HSS.U8, DEC.HSS.U32. -/

namespace Sys2Proof.Machine

/-- The sub-function word of R79: 0xFF00 enable, 0x0000 disable (R120). -/
def hssSubFunction (enable : BitVec 1) : Half := if enable = 1 then 0xFF00#16 else 0x0000#16

/-- R120, layout R79. -/
def bodyEncHss (inp : Inputs) : Body :=
  .ok (memWrite2 0 (hssSubFunction (opEnable inp)) ++ memWrite4 2 (opBaud inp) ++ memWrite2 6 (opDelay inp)
    ++ [.txFc 65, .txLen 8])

/-- R121, layout R84 (first table). -/
def bodyDecHssU8 (inp : Inputs) : Body := do
  checkLen inp 7
  let state ← memRead1 inp 0
  let baud ← memRead4 inp 1
  let delay ← memRead2 inp 5
  return [.rState (zext 32 state), .rBaud baud, .rDelay delay]

/-- R122, layout R84 (second table). -/
def bodyDecHssU32 (inp : Inputs) : Body := do
  checkLen inp 10
  let state ← memRead4 inp 0
  let baud ← memRead4 inp 4
  let delay ← memRead2 inp 8
  return [.rState state, .rBaud baud, .rDelay delay]

/-- ENC.HSS in the frame of R74. -/
def execEncHss (s : State) : Host.Outcome State Fault Refusal :=
  commandFrame (opcode .encHss) (bodyEncHss s.inp) s

/-- DEC.HSS.U8 in the frame of R74. -/
def execDecHssU8 (s : State) : Host.Outcome State Fault Refusal :=
  commandFrame (opcode .decHssU8) (bodyDecHssU8 s.inp) s

/-- DEC.HSS.U32 in the frame of R74. -/
def execDecHssU32 (s : State) : Host.Outcome State Fault Refusal :=
  commandFrame (opcode .decHssU32) (bodyDecHssU32 s.inp) s

end Sys2Proof.Machine
end

