-- ==== Sys2Proof/Machine/MotorCommand.lean ====
section
/-! DEFINITION. MotorCommandStream, function code 100 (42_motor_command_stream.md): ENC.MCS, DEC.MCS. -/

namespace Sys2Proof.Machine

/-- R140, layout R80. The sub-function code is not checked. -/
def bodyEncMcs (inp : Inputs) : Body :=
  .ok (memWrite1 0 (opSub inp) ++ memWrite4 1 (opCommandData inp) ++ [.txFc 100, .txLen 5])

/-- R141, layout R84: the telemetry tail at 0. -/
def bodyDecMcs (inp : Inputs) : Body := do
  checkLen inp 15
  decodeTail inp 0

/-- ENC.MCS in the frame of R74. -/
def execEncMcs (s : State) : Host.Outcome State Fault Refusal :=
  commandFrame (opcode .encMcs) (bodyEncMcs s.inp) s

/-- DEC.MCS in the frame of R74. -/
def execDecMcs (s : State) : Host.Outcome State Fault Refusal :=
  commandFrame (opcode .decMcs) (bodyDecMcs s.inp) s

end Sys2Proof.Machine
end

