-- ==== Sys2Proof/Machine/MotorRead.lean ====
section
/-! DEFINITION. MotorReadStream, function code 104 (43_motor_read_stream.md): ENC.MRS, DEC.MRS. -/

namespace Sys2Proof.Machine

/-- R160, layout R81. -/
def bodyEncMrs (inp : Inputs) : Body := do
  checkWidth (opWidth inp)
  return memWrite2 0 (opAddr inp) ++ memWrite1 2 (opWidth inp) ++ [.txFc 104, .txLen 3]

/-- R161: the width check comes first (R204); the layout comes from the width, never from RX_LEN (R89); R_REGVAL is
raw, a 16-bit value zero-extended (D15). -/
def bodyDecMrs (inp : Inputs) : Body := do
  checkWidth (opWidth inp)
  if opWidth inp = 2 then
    checkLen inp 20
    let regval ← memRead4 inp 0
    let mode ← memRead1 inp 4
    let tail ← decodeTail inp 5
    return [.rRegval regval, .rMode mode] ++ tail
  else
    checkLen inp 18
    let regval ← memRead2 inp 0
    let mode ← memRead1 inp 2
    let tail ← decodeTail inp 3
    return [.rRegval (zext 32 regval), .rMode mode] ++ tail

/-- ENC.MRS in the frame of R74. -/
def execEncMrs (s : State) : Host.Outcome State Fault Refusal :=
  commandFrame (opcode .encMrs) (bodyEncMrs s.inp) s

/-- DEC.MRS in the frame of R74. -/
def execDecMrs (s : State) : Host.Outcome State Fault Refusal :=
  commandFrame (opcode .decMrs) (bodyDecMrs s.inp) s

end Sys2Proof.Machine
end

