-- ==== Sys2Proof/Machine/MotorWrite.lean ====
section
/-! DEFINITION. MotorWriteStream, function code 105 (44_motor_write_stream.md): ENC.MWS, DEC.MWS. -/

namespace Sys2Proof.Machine

/-- R180, layout R82: all 32 bits of data are sent for either width (90_conflicts.md C8). -/
def bodyEncMws (inp : Inputs) : Body := do
  checkWidth (opWidth inp)
  return memWrite2 0 (opAddr inp) ++ memWrite1 2 (opWidth inp) ++ memWrite4 3 (opWriteData inp)
    ++ [.txFc 105, .txLen 7]

/-- R181, layout R84 (FC 105 table). -/
def bodyDecMws (inp : Inputs) : Body := do
  checkLen inp 16
  let mode ← memRead1 inp 0
  let tail ← decodeTail inp 1
  return [.rMode mode] ++ tail

/-- ENC.MWS in the frame of R74. -/
def execEncMws (s : State) : Host.Outcome State Fault Refusal :=
  commandFrame (opcode .encMws) (bodyEncMws s.inp) s

/-- DEC.MWS in the frame of R74. -/
def execDecMws (s : State) : Host.Outcome State Fault Refusal :=
  commandFrame (opcode .decMws) (bodyDecMws s.inp) s

end Sys2Proof.Machine
end

