-- ==== Sys2Proof/Machine/PairPacker.lean ====
section
/-! DEFINITION. The register-pair packer (40_register_pair.md): PACK.SPLIT, UNPACK.S32, UNPACK.U32. -/

namespace Sys2Proof.Machine

/-- R100, and R104: the high word is the shifted value. -/
def bodyPackSplit (inp : Inputs) : Body :=
  let v := opValue inp
  .ok [.rLow (v.extractLsb' 0 16), .rHigh (v.extractLsb' 16 16)]

/-- R101: `{hi, lo}`, read as `sint(R_VALUE)`. -/
def bodyUnpackS32 (inp : Inputs) : Body := .ok [.rValue (opHigh inp ++ opLow inp)]

/-- R102: `{hi, lo}`, read as `uint(R_VALUE)`: the bits of UNPACK.S32 (92_eei_decisions.md D31). -/
def bodyUnpackU32 (inp : Inputs) : Body := .ok [.rValue (opHigh inp ++ opLow inp)]

/-- PACK.SPLIT in the frame of R74. -/
def execPackSplit (s : State) : Host.Outcome State Fault Refusal :=
  commandFrame (opcode .packSplit) (bodyPackSplit s.inp) s

/-- UNPACK.S32 in the frame of R74. -/
def execUnpackS32 (s : State) : Host.Outcome State Fault Refusal :=
  commandFrame (opcode .unpackS32) (bodyUnpackS32 s.inp) s

/-- UNPACK.U32 in the frame of R74. -/
def execUnpackU32 (s : State) : Host.Outcome State Fault Refusal :=
  commandFrame (opcode .unpackU32) (bodyUnpackU32 s.inp) s

end Sys2Proof.Machine
end

