-- ==== Sys2Proof/Machine/Dispatch.lean ====
section
/-! DEFINITION. The meaning of each operation, one arm for each constructor of Instr (30_encoding.md R71). -/

namespace Sys2Proof.Machine

def exec (i : Instr) (s : State) : Host.Outcome State Fault Refusal :=
  match i with
  | .packSplit => Sys2Proof.Machine.execPackSplit s
  | .unpackS32 => Sys2Proof.Machine.execUnpackS32 s
  | .unpackU32 => Sys2Proof.Machine.execUnpackU32 s
  | .encHss => Sys2Proof.Machine.execEncHss s
  | .decHssU8 => Sys2Proof.Machine.execDecHssU8 s
  | .decHssU32 => Sys2Proof.Machine.execDecHssU32 s
  | .encMcs => Sys2Proof.Machine.execEncMcs s
  | .decMcs => Sys2Proof.Machine.execDecMcs s
  | .encMrs => Sys2Proof.Machine.execEncMrs s
  | .decMrs => Sys2Proof.Machine.execDecMrs s
  | .encMws => Sys2Proof.Machine.execEncMws s
  | .decMws => Sys2Proof.Machine.execDecMws s

end Sys2Proof.Machine
end

