-- ==== Sys2Proof/Machine/HostOps.lean ====
section
/-! DEFINITION. What each thing that reaches the block does, and which comes next (20_memory.md R62, 30_encoding.md R74,
70_reset_and_hazards.md R230, R240). -/

namespace Sys2Proof.Machine

/-- `HostIssue(op)`: the operation that the OP selects, or IllegalOperation (R74, R75, R76). -/
def issue (op : Byte) (s : State) : Host.Outcome State Fault Refusal :=
  match decodeOp op with
  | .ok i => exec i s
  | .error _ => illegalOperation op s

/-- One host operation (92_eei_decisions.md D2). -/
def perform (o : HostOp) (s : State) : Host.Outcome State Fault Refusal :=
  match o with
  | .writeArg i v => .next (hostWriteArg i v s)
  | .writeRx i b => .next (hostWriteRx i b s)
  | .writeRxLen n => .next (hostWriteRxLen n s)
  | .issue op => issue op s
  | .read r => hostRead r s

/-- One thing from outside: a host operation, or a platform reset (R230). -/
def occur (e : Event) (s : State) : Host.Outcome State Fault Refusal :=
  match e with
  | .host o => perform o s
  | .reset => .next (platformReset s)

/-- The next thing from outside, in the order the host issues them (R62), and the state without it pending. -/
def nextEvent (s : State) : Option (Event × State) :=
  match s.pending with
  | [] => none
  | e :: rest => some (e, { s with pending := rest })

end Sys2Proof.Machine
end

