-- ==== Sys2Proof/Machine/Step.lean ====
section
/-! DEFINITION. One step: the next thing that reaches the block takes effect, whole (70_reset_and_hazards.md R240). With
nothing pending the block does nothing (R247; log 3). -/

namespace Sys2Proof.Machine

/-- One step of the machine. -/
def step (s : State) : Host.Outcome State Fault Refusal :=
  match nextEvent s with
  | none => .next s
  | some (e, s') => occur e s'

/-- `s` with the opcode-table word `w` as the very next host operation: a command is not fetched from memory but given
by `HostIssue(op)` (20_memory.md R64), so this puts that host operation first (log 3). -/
def State.withFetchWord (s : State) (nbits w : Nat) : State :=
  { s with pending := .host (.issue (tableByte nbits w)) :: s.pending }

end Sys2Proof.Machine
end

