-- ==== Sys2Proof/Config.lean ====
section
/-! DEFINITION. The parameters that the spec leaves OPEN (00_scope.md R6, 10_state.md R21): constants with no body, so
that no proof can learn their value. R21: none of them changes any rule of the block, and no meaning reads one; they
stand for claims about a host or a whole system (log 8). -/

namespace Sys2Proof.Config

/-- The two layouts of the FC 65 response that the spec lays out (R84). -/
inductive HssLayout where
  | u8 | u32
  deriving DecidableEq, Repr, Inhabited

/-- Which half of the FC 105 data field the actuator uses for a width-1 write (44_motor_write_stream.md R182). -/
inductive WriteHalf where
  | highUsed | lowUsed
  deriving DecidableEq, Repr, Inhabited

/-- `FW_REV_HSS_LAYOUT`: the layout of the actuator's firmware, which the host knows (R6, R123). -/
opaque fwRevHssLayout : HssLayout

/-- `FW105_W1_HALF`, outside the block (R6, R182). -/
opaque fw105W1Half : WriteHalf

/-- `HOST_BINDING`: where each register and cell appears in a host's address space (R6, R61). The bus protocol that is
the rest of the binding is outside the block. -/
opaque hostBinding : HostReg → Nat

end Sys2Proof.Config
end

