-- ==== Sys2Proof/Machine/Assembly.lean ====
section
/-! DEFINITION. What a line of assembly stands for: its host operations (30_encoding.md R93, R94), and a host program as
the list of them (70_reset_and_hazards.md R247). -/

namespace Sys2Proof.Machine

/-- R93: `HostWriteArg(i, v)` for each ARG operand given, in the order written, with v the value `x mod 2^32`. -/
def argWrites (c : Command) : List HostOp :=
  c.args.filterMap fun a => (c.instr.keyArg a.1).map fun i => .writeArg i (ofInteger 32 a.2)

/-- `HostWriteRx(k, bk)` for the bytes from index `k` on. -/
def rxCellWrites (k : Nat) : List Nat → List HostOp
  | [] => []
  | b :: rest => .writeRx (Fin.ofNat 256 k) (BitVec.ofNat 8 b) :: rxCellWrites (k + 1) rest

/-- R93: for `rx=[b0 b1 ... bn-1]`, `HostWriteRx(k, bk)` for k = 0..n-1, then `HostWriteRxLen(n)`. -/
def rxWrites : Option (List Nat) → List HostOp
  | none => []
  | some bs => rxCellWrites 0 bs ++ [.writeRxLen (BitVec.ofNat 8 bs.length)]

/-- The host sequence of a command line: its ARG writes, its RX writes, then `HostIssue(op)` (R93). -/
def commandOps (c : Command) : List HostOp := argWrites c ++ rxWrites c.rx ++ [.issue (opcode c.instr)]

/-- A key with its value, where the operand is given. -/
def operand (k : Key) : Option Int → List (Key × Int)
  | none => []
  | some x => [(k, x)]

/-- The expansion column of R94. -/
def expandPseudo : Pseudo → Command
  | .encHssOn baud delay => ⟨.encHss, [(.enable, 1)] ++ operand .baud baud ++ operand .delay delay, none⟩
  | .encHssOff baud delay => ⟨.encHss, [(.enable, 0)] ++ operand .baud baud ++ operand .delay delay, none⟩
  | .encMrs16 addr => ⟨.encMrs, operand .addr addr ++ [(.width, 1)], none⟩
  | .encMrs32 addr => ⟨.encMrs, operand .addr addr ++ [(.width, 2)], none⟩
  | .decMrs16 rx => ⟨.decMrs, [(.width, 1)], rx⟩
  | .decMrs32 rx => ⟨.decMrs, [(.width, 2)], rx⟩
  | .encMws16 addr data => ⟨.encMws, operand .addr addr ++ [(.width, 1)] ++ operand .data data, none⟩
  | .encMws32 addr data => ⟨.encMws, operand .addr addr ++ [(.width, 2)] ++ operand .data data, none⟩

/-- The host sequence of a line. A comment stands for nothing. -/
def lineOps : Line → List HostOp
  | .command c => commandOps c
  | .pseudo p => commandOps (expandPseudo p)
  | .setArg i v => [.writeArg (Fin.ofNat 3 i) (ofInteger 32 v)]
  | .setRx i b => [.writeRx (Fin.ofNat 256 i) (ofInteger 8 b)]
  | .setRxLen n => [.writeRxLen (ofInteger 8 n)]
  | .issueOp op => [.issue (ofInteger 8 op)]
  | .readReg r => [.read r]
  | .comment => []

/-- The host operations of a list of lines; none where a line is ill formed (log 6). -/
def assemble : List Line → Option (List HostOp)
  | [] => some []
  | l :: rest =>
    if l.wellFormed then (assemble rest).map fun ops => lineOps l ++ ops else none

/-- A host program made the pending events (R247: "a finite list of host operations"). -/
def State.withProgram (s : State) (ops : List HostOp) : State := { s with pending := ops.map Event.host }

end Sys2Proof.Machine
end

