-- ==== Sys2Proof/Safety.lean ====
section
/-! DEFINITION. The terms that claims use: the spec's tables of what an operation reads, writes and may report, the
payload layouts as byte strings, when a result register holds a result, the duties of a host, and the invariant of the
machine. No meaning calls anything of this file. -/

namespace Sys2Proof.Machine

/-- `Body(op)` of 30_encoding.md R74 for each operation. -/
def bodyOf : Instr → Inputs → Body
  | .packSplit => bodyPackSplit
  | .unpackS32 => bodyUnpackS32
  | .unpackU32 => bodyUnpackU32
  | .encHss => bodyEncHss
  | .decHssU8 => bodyDecHssU8
  | .decHssU32 => bodyDecHssU32
  | .encMcs => bodyEncMcs
  | .decMcs => bodyDecMcs
  | .encMrs => bodyEncMrs
  | .decMrs => bodyDecMrs
  | .encMws => bodyEncMws
  | .decMws => bodyDecMws

/-! ### Tables -/

/-- 30_encoding.md R85: the expected size of a decode operation, from the operation and the byte ARG1[7:0]; none where
the operation decodes nothing or the width is no width. -/
def expectedSize (i : Instr) (width : Byte) : Option Nat :=
  match i with
  | .decHssU8 => some 7
  | .decHssU32 => some 10
  | .decMcs => some 15
  | .decMrs => if width = 1 then some 18 else if width = 2 then some 20 else none
  | .decMws => some 16
  | .packSplit | .unpackS32 | .unpackU32 | .encHss | .encMcs | .encMrs | .encMws => none

/-- R72: the ARG registers an operation reads. -/
def argsRead : Instr → List (Fin 3)
  | .packSplit => [0]
  | .unpackS32 | .unpackU32 => [0, 1]
  | .encHss => [0, 1, 2]
  | .encMcs => [0, 1]
  | .encMrs => [0, 1]
  | .decMrs => [1]
  | .encMws => [0, 1, 2]
  | .decHssU8 | .decHssU32 | .decMcs | .decMws => []

/-- R29 with R28: the result registers that an operation's rule names (for an encoder, the TX cells below TX_LEN). -/
def namedRegs : Instr → List ResultReg
  | .packSplit => [.rLow, .rHigh]
  | .unpackS32 | .unpackU32 => [.rValue]
  | .encHss => [.tx 0, .tx 1, .tx 2, .tx 3, .tx 4, .tx 5, .tx 6, .tx 7, .txFc, .txLen]
  | .decHssU8 | .decHssU32 => [.rState, .rBaud, .rDelay]
  | .encMcs => [.tx 0, .tx 1, .tx 2, .tx 3, .tx 4, .txFc, .txLen]
  | .decMcs => [.rPos, .rForce, .rPower, .rTemp, .rVolt, .rErrs]
  | .encMrs => [.tx 0, .tx 1, .tx 2, .txFc, .txLen]
  | .decMrs => [.rRegval, .rMode, .rPos, .rForce, .rPower, .rTemp, .rVolt, .rErrs]
  | .encMws => [.tx 0, .tx 1, .tx 2, .tx 3, .tx 4, .tx 5, .tx 6, .txFc, .txLen]
  | .decMws => [.rMode, .rPos, .rForce, .rPower, .rTemp, .rVolt, .rErrs]

/-- R28, R78: TX_FC after a successful command. -/
def requestCode : Instr → Byte
  | .encHss => 65
  | .encMcs => 100
  | .encMrs => 104
  | .encMws => 105
  | .packSplit | .unpackS32 | .unpackU32 | .decHssU8 | .decHssU32 | .decMcs | .decMrs | .decMws => 0

/-- R28, R79 to R82: TX_LEN after a successful command. -/
def requestLength : Instr → Byte
  | .encHss => 8
  | .encMcs => 5
  | .encMrs => 3
  | .encMws => 7
  | .packSplit | .unpackS32 | .unpackU32 | .decHssU8 | .decHssU32 | .decMcs | .decMrs | .decMws => 0

/-- R200: the operations that check a register width, and so can report ArgumentError. -/
def checksWidth : Instr → Bool
  | .encMrs | .decMrs | .encMws => true
  | .packSplit | .unpackS32 | .unpackU32 | .encHss | .decHssU8 | .decHssU32 | .encMcs | .decMcs | .decMws => false

/-! ### Payloads as byte strings, big-endian (20_memory.md R52) -/

/-- A 16-bit field, most significant byte first. -/
def beBytes16 (v : Half) : List Byte := [v.extractLsb' 8 8, v.extractLsb' 0 8]

/-- A 32-bit field, most significant byte first. -/
def beBytes32 (v : Word) : List Byte := [v.extractLsb' 24 8, v.extractLsb' 16 8, v.extractLsb' 8 8, v.extractLsb' 0 8]

/-- The telemetry tail of R83. -/
def tailBytes (pos force : Word) (power : Half) (temp : Byte) (volt errs : Half) : List Byte :=
  beBytes32 pos ++ beBytes32 force ++ beBytes16 power ++ [temp] ++ beBytes16 volt ++ beBytes16 errs

/-- RX starts with these bytes, each written since reset. -/
def rxHolds (inp : Inputs) (bs : List Byte) : Prop :=
  ∀ k, ∀ h : k < bs.length, Memory.read inp.rx k = some bs[k]

/-- The first TX cells hold these bytes and the rest are 0 (R28). -/
def txHolds (r : Results) (bs : List Byte) : Prop := ∀ k : Fin 8, r.tx[k] = bs.getD k 0

/-! ### What may stop or fail a command -/

/-- RX cells 0..n-1 have been written since reset (R25). -/
def rxWritten (inp : Inputs) (n : Nat) : Prop := ∀ k < n, (Memory.read inp.rx k).isSome

/-- The ARG registers that an operation reads have been written since reset: the host's duty of
70_reset_and_hazards.md R232, without which the spec gives an operand no value (R25, log 1). -/
def argsWritten (i : Instr) (s : State) : Prop := ∀ a ∈ argsRead i, s.argWritten[a] = true

/-- Everything that an operation's rule reads has been written since reset (R25, R232). The RX cells count only where
the checks pass, since a failed check comes before any RX cell is read (R86). -/
def inputsWritten (i : Instr) (s : State) : Prop :=
  argsWritten i s ∧
  ∀ n, expectedSize i (opWidth s.inp) = some n → n ≤ uint s.inp.rxLen → rxWritten s.inp n

/-- The two input states agree on everything that the operation reads (R72): its ARG bit-fields, and for a decode RX_LEN
and, where RX_LEN reaches the expected size, the RX cells below it (R24). -/
def operandsAgree (i : Instr) (a b : Inputs) : Prop :=
  (match i with
  | .packSplit => opValue a = opValue b
  | .unpackS32 | .unpackU32 => opLow a = opLow b ∧ opHigh a = opHigh b
  | .encHss => opEnable a = opEnable b ∧ opBaud a = opBaud b ∧ opDelay a = opDelay b
  | .encMcs => opSub a = opSub b ∧ opCommandData a = opCommandData b
  | .encMrs => opAddr a = opAddr b ∧ opWidth a = opWidth b
  | .decMrs => opWidth a = opWidth b
  | .encMws => opAddr a = opAddr b ∧ opWidth a = opWidth b ∧ opWriteData a = opWriteData b
  | .decHssU8 | .decHssU32 | .decMcs | .decMws => True) ∧
  ∀ n, expectedSize i (opWidth a) = some n →
    (n ≤ uint a.rxLen ↔ n ≤ uint b.rxLen) ∧
    (n ≤ uint a.rxLen → ∀ k < n, Memory.read a.rx k = Memory.read b.rx k)

/-- Two outcomes of commands report the same: the same STATUS and result state, or the same stop. -/
def sameReport (x y : Host.Outcome State Fault Refusal) : Prop :=
  match x, y with
  | .next s, .next t => s.status = t.status ∧ s.res = t.res
  | .fault f, .fault g => f = g
  | .refused f, .refused g => f = g
  | _, _ => False

/-! ### When a result register holds a result -/

/-- 10_state.md R32: a result register carries meaning only when STATUS.OK = 1, and then only if the rule of the
operation in STATUS.LASTOP names it. -/
def resultHolds (s : State) (r : ResultReg) : Prop :=
  statusOk s.status = true ∧ ∃ i, decodeOp (statusLastOp s.status) = .ok i ∧ r ∈ namedRegs i

/-! ### Duties of a host, outside the block -/

/-- 70_reset_and_hazards.md R243 with 41_high_speed_stream.md R123: the decode operation that answers a request of the
function code, for firmware of the given FC 65 layout. DEC.MRS also needs the request's width in ARG1. -/
def matchingDecoder (layout : Config.HssLayout) (fc : Byte) : Option Instr :=
  if fc = 65 then
    match layout with
    | .u8 => some .decHssU8
    | .u32 => some .decHssU32
  else if fc = 100 then some .decMcs
  else if fc = 104 then some .decMrs
  else if fc = 105 then some .decMws
  else none

/-- 44_motor_write_stream.md R182: the 16-bit value that the actuator takes from the data field of a width-1 write. -/
def widthOneValue (half : Config.WriteHalf) (data : Word) : Half :=
  match half with
  | .highUsed => data.extractLsb' 16 16
  | .lowUsed => data.extractLsb' 0 16

/-! ### Integers written in assembly -/

/-- R105, R8: the word is the bit pattern of the integer, signed where the integer is negative and unsigned where it is
not. No word stands for an integer outside -2^31 .. 2^32 - 1. -/
def standsFor (v : Word) (x : Int) : Prop := if x < 0 then sint v = x else (uint v : Int) = x

/-! ### The invariant -/

/-- 60_exceptions.md R200, R204: the ERR codes a command with this OP can end with. -/
def errorPossible (op : Byte) (err : BitVec 4) : Prop :=
  match decodeOp op with
  | .error _ => err = 2
  | .ok i => err = 0 ∨ (err = 1 ∧ i.takesRx = true) ∨ (err = 3 ∧ checksWidth i = true)

/-- 10_state.md R27: the values STATUS can hold: 0 after reset, or what a command left. -/
def statusLegal (st : Word) : Prop :=
  st = 0 ∨ ∃ op err, errorPossible op err ∧ st = statusWord op err

/-- What holds of the machine at all times: RX keeps its canonical form; STATUS is legal (R27) and its reserved bits
read 0 (R26); a result register that holds no result reads as a cleared one (R31, R32); and after a success TX_FC and
TX_LEN are those of the operation in LASTOP (R28). -/
structure Inv (s : State) : Prop where
  rx_canonical : Memory.wf s.inp.rx
  status_legal : statusLegal s.status
  reserved_zero : statusReservedLow s.status = 0 ∧ statusReservedHigh s.status = 0
  results_follow : ∀ r, ¬ resultHolds s r → readResult s.res r = readResult Results.cleared r
  request_follows : ∀ i, statusOk s.status = true → decodeOp (statusLastOp s.status) = .ok i →
    s.res.txFc = requestCode i ∧ s.res.txLen = requestLength i

end Sys2Proof.Machine
end

