-- ==== Sys2Proof/Certificates/Slice0/Obligations.lean ====
section
/-! DEFINITION. The statements for the provers. In every statement about a command, the equation `exec i s = .next t`
with t written as an update of s is also the frame: what t does not name is as it was in s (every ARG register, RX_LEN,
every RX cell, the pending events, what the host has read). `argsWritten` is the host's duty of 70_reset_and_hazards.md
R232, under which the spec gives an operand a value (log 1). -/

open Sys2Proof Sys2Proof.Machine

/-! ### Encoding -/

/-- Five words of 30_encoding.md R71, written out: 0x01 is PACK.SPLIT, 0x12 DEC.HSS.U32, 0x21 DEC.MCS, 0x30 ENC.MRS, 0x41
DEC.MWS; a byte after the OP is left over. -/
def Obligations.SampleOpBytesDecode : Prop :=
  decode [0x01#8, 0xAA#8] = .ok (.packSplit, [0xAA#8]) ∧ decode [0x12#8] = .ok (.decHssU32, []) ∧
  decode [0x21#8] = .ok (.decMcs, []) ∧ decode [0x30#8] = .ok (.encMrs, []) ∧ decode [0x41#8] = .ok (.decMws, [])

/-- Decode and encode agree, both ways: a byte sequence decodes to an operation and a rest exactly when it is that
operation's encoding followed by that rest (R70, R71). -/
def Obligations.DecodesExactlyTheEncodings : Prop :=
  ∀ (bs : List Byte) (i : Instr) (rest : List Byte), decode bs = .ok (i, rest) ↔ bs = encode i ++ rest

/-- When the next thing pending is `HostIssue(op)` and the OP decodes to `i`, a step is `exec i` at the state without
that pending operation. -/
def Obligations.StepRunsTheIssuedCommand : Prop :=
  ∀ (s : State) (op : Byte) (i : Instr) (rest : List Event),
    s.pending = .host (.issue op) :: rest → decode [op] = .ok (i, []) → i.wellFormed = true →
    step s = exec i { s with pending := rest }

/-- R75: every OP of the listed ranges ends with ERR = 2 and all results 0, whatever the inputs hold. -/
def Obligations.OpsOutsideTheTableAreIllegal : Prop :=
  ∀ (s : State) (op : Byte) (rest : List Event),
    s.pending = .host (.issue op) :: rest →
    (uint op = 0x00 ∨ (0x04 ≤ uint op ∧ uint op ≤ 0x0F) ∨ (0x13 ≤ uint op ∧ uint op ≤ 0x1F) ∨
      (0x22 ≤ uint op ∧ uint op ≤ 0x2F) ∨ (0x32 ≤ uint op ∧ uint op ≤ 0x3F) ∨ 0x42 ≤ uint op) →
    step s = .next { s with pending := rest, res := Results.cleared, status := BitVec.ofNat 32 (uint op * 256 + 0x21) }

/-! ### The register-pair packer -/

/-- R100 for a written ARG0: "low = value & 0xFFFF", "high = (value >> 16) & 0xFFFF". -/
def Obligations.PackSplitSplitsTheWord : Prop :=
  opcode .packSplit = 0x01#8 ∧
  ∀ s : State, argsWritten .packSplit s →
    exec .packSplit s = .next { s with
      status := 0x0103#32
      res := { Results.cleared with
        rLow := (s.inp.args[0] &&& 0xFFFF#32).setWidth 16
        rHigh := ((s.inp.args[0] >>> 16) &&& 0xFFFF#32).setWidth 16 } }

/-- R101: R_VALUE is `{hi, lo}`, and as a signed number the one the rule gives. -/
def Obligations.UnpackSignedCombinesThePair : Prop :=
  opcode .unpackS32 = 0x02#8 ∧
  ∀ s : State, argsWritten .unpackS32 s →
    ∃ v : Word,
      exec .unpackS32 s = .next { s with status := 0x0203#32, res := { Results.cleared with rValue := v } } ∧
      v = (s.inp.args[1].extractLsb' 0 16 ++ s.inp.args[0].extractLsb' 0 16 : BitVec 32) ∧
      sint v =
        if (s.inp.args[1]).getLsbD 15 = true then
          ((uint s.inp.args[1] % 65536 * 65536 + uint s.inp.args[0] % 65536 : Nat) : Int) - 4294967296
        else ((uint s.inp.args[1] % 65536 * 65536 + uint s.inp.args[0] % 65536 : Nat) : Int)

/-- R102: the unsigned number, in the very bits that UNPACK.S32 writes. -/
def Obligations.UnpackUnsignedCombinesThePair : Prop :=
  opcode .unpackU32 = 0x03#8 ∧
  ∀ s : State, argsWritten .unpackU32 s →
    ∃ v : Word,
      exec .unpackU32 s = .next { s with status := 0x0303#32, res := { Results.cleared with rValue := v } } ∧
      uint v = uint s.inp.args[1] % 65536 * 65536 + uint s.inp.args[0] % 65536 ∧
      exec .unpackS32 s = .next { s with status := 0x0203#32, res := { Results.cleared with rValue := v } }

/-- R103, in the host's own operations: PACK.SPLIT, then R_LOW and R_HIGH written to ARG0 and ARG1, then an UNPACK gives
the value back; and UNPACK, then R_VALUE written to ARG0, then PACK.SPLIT gives the pair back. -/
def Obligations.PairRoundTrips : Prop :=
  (∀ s : State, argsWritten .packSplit s → ∃ a, exec .packSplit s = .next a ∧
    ∃ b c,
      exec .unpackS32 (hostWriteArg 1 (zext 32 a.res.rHigh) (hostWriteArg 0 (zext 32 a.res.rLow) a)) = .next b ∧
      exec .unpackU32 (hostWriteArg 1 (zext 32 a.res.rHigh) (hostWriteArg 0 (zext 32 a.res.rLow) a)) = .next c ∧
      b.res.rValue = s.inp.args[0] ∧ c.res.rValue = s.inp.args[0]) ∧
  (∀ s : State, argsWritten .unpackS32 s → ∃ a b, exec .unpackS32 s = .next a ∧
    exec .packSplit (hostWriteArg 0 a.res.rValue a) = .next b ∧
    b.res.rLow = s.inp.args[0].extractLsb' 0 16 ∧ b.res.rHigh = s.inp.args[1].extractLsb' 0 16) ∧
  (∀ s : State, argsWritten .unpackU32 s → ∃ a b, exec .unpackU32 s = .next a ∧
    exec .packSplit (hostWriteArg 0 a.res.rValue a) = .next b ∧
    b.res.rLow = s.inp.args[0].extractLsb' 0 16 ∧ b.res.rHigh = s.inp.args[1].extractLsb' 0 16)

/-! ### Requests -/

/-- R120: the FC 65 request. -/
def Obligations.HighSpeedRequestIsEncoded : Prop :=
  opcode .encHss = 0x10#8 ∧
  ∀ s : State, argsWritten .encHss s →
    ∃ tx : Vector Byte 8,
      exec .encHss s = .next { s with
        status := 0x1003#32
        res := { Results.cleared with txFc := 65, txLen := 8, tx := tx } } ∧
      tx.toList = beBytes16 (if s.inp.args[0].getLsbD 0 = true then 0xFF00#16 else 0x0000#16)
        ++ beBytes32 s.inp.args[1] ++ beBytes16 (s.inp.args[2].extractLsb' 0 16)

/-- R140: the FC 100 request. -/
def Obligations.MotorCommandRequestIsEncoded : Prop :=
  opcode .encMcs = 0x20#8 ∧
  ∀ s : State, argsWritten .encMcs s →
    ∃ tx : Vector Byte 8,
      exec .encMcs s = .next { s with
        status := 0x2003#32
        res := { Results.cleared with txFc := 100, txLen := 5, tx := tx } } ∧
      tx.toList = [s.inp.args[0].extractLsb' 0 8] ++ beBytes32 s.inp.args[1] ++ [0, 0, 0]

/-- R160: the FC 104 request for width 1 or 2; any other width is an ArgumentError with TX_FC, TX_LEN and TX at 0. -/
def Obligations.MotorReadRequestIsEncoded : Prop :=
  opcode .encMrs = 0x30#8 ∧
  ∀ s : State, argsWritten .encMrs s →
    (uint s.inp.args[1] % 256 = 1 ∨ uint s.inp.args[1] % 256 = 2 →
      ∃ tx : Vector Byte 8,
        exec .encMrs s = .next { s with
          status := 0x3003#32
          res := { Results.cleared with txFc := 104, txLen := 3, tx := tx } } ∧
        tx.toList = beBytes16 (s.inp.args[0].extractLsb' 0 16) ++ [s.inp.args[1].extractLsb' 0 8]
          ++ [0, 0, 0, 0, 0]) ∧
    (¬ (uint s.inp.args[1] % 256 = 1 ∨ uint s.inp.args[1] % 256 = 2) →
      exec .encMrs s = .next { s with status := 0x3031#32, res := Results.cleared })

/-- R180: the FC 105 request for width 1 or 2, with all 32 data bits for either; any other width is an ArgumentError. -/
def Obligations.MotorWriteRequestIsEncoded : Prop :=
  opcode .encMws = 0x40#8 ∧
  ∀ s : State, argsWritten .encMws s →
    (uint s.inp.args[1] % 256 = 1 ∨ uint s.inp.args[1] % 256 = 2 →
      ∃ tx : Vector Byte 8,
        exec .encMws s = .next { s with
          status := 0x4003#32
          res := { Results.cleared with txFc := 105, txLen := 7, tx := tx } } ∧
        tx.toList = beBytes16 (s.inp.args[0].extractLsb' 0 16) ++ [s.inp.args[1].extractLsb' 0 8]
          ++ beBytes32 s.inp.args[2] ++ [0]) ∧
    (¬ (uint s.inp.args[1] % 256 = 1 ∨ uint s.inp.args[1] % 256 = 2) →
      exec .encMws s = .next { s with status := 0x4031#32, res := Results.cleared })

/-- R92, requests: the bytes in TX after a successful encode, put together big-endian at the offsets of R79 to R82, are
the operand fields of R72. -/
def Obligations.RequestsReadBackTheOperands : Prop :=
  (∀ s t : State, exec .encHss s = .next t →
    (t.res.tx[0] ++ t.res.tx[1] : BitVec 16) = (if s.inp.args[0].getLsbD 0 = true then 0xFF00#16 else 0x0000#16) ∧
    (t.res.tx[2] ++ t.res.tx[3] ++ t.res.tx[4] ++ t.res.tx[5] : BitVec 32) = s.inp.args[1] ∧
    uint (t.res.tx[6] ++ t.res.tx[7] : BitVec 16) = uint s.inp.args[2] % 65536) ∧
  (∀ s t : State, exec .encMcs s = .next t →
    uint t.res.tx[0] = uint s.inp.args[0] % 256 ∧
    (t.res.tx[1] ++ t.res.tx[2] ++ t.res.tx[3] ++ t.res.tx[4] : BitVec 32) = s.inp.args[1]) ∧
  (∀ s t : State, exec .encMrs s = .next t → statusOk t.status = true →
    uint (t.res.tx[0] ++ t.res.tx[1] : BitVec 16) = uint s.inp.args[0] % 65536 ∧
    uint t.res.tx[2] = uint s.inp.args[1] % 256) ∧
  (∀ s t : State, exec .encMws s = .next t → statusOk t.status = true →
    uint (t.res.tx[0] ++ t.res.tx[1] : BitVec 16) = uint s.inp.args[0] % 65536 ∧
    uint t.res.tx[2] = uint s.inp.args[1] % 256 ∧
    (t.res.tx[3] ++ t.res.tx[4] ++ t.res.tx[5] ++ t.res.tx[6] : BitVec 32) = s.inp.args[2])

/-- R182: with width 1 and the 16-bit value in both halves of data, the data field of the request gives the actuator
that value whichever half it uses. -/
def Obligations.BothHalvesServeEitherReading : Prop :=
  ∀ (s : State) (v : Half), argsWritten .encMws s → uint s.inp.args[1] % 256 = 1 →
    s.inp.args[2] = (v ++ v : BitVec 32) →
    ∃ t, exec .encMws s = .next t ∧ statusOk t.status = true ∧
      widthOneValue Config.fw105W1Half (t.res.tx[3] ++ t.res.tx[4] ++ t.res.tx[5] ++ t.res.tx[6]) = v

/-! ### Responses: for every value of every field, the payload of R84 gives the field values back (R92, R90) -/

/-- R121. -/
def Obligations.HighSpeedByteResponseIsDecoded : Prop :=
  opcode .decHssU8 = 0x11#8 ∧
  (∀ (s : State) (state : Byte) (baud : Word) (delay : Half),
    7 ≤ uint s.inp.rxLen → rxHolds s.inp ([state] ++ beBytes32 baud ++ beBytes16 delay) →
    exec .decHssU8 s = .next { s with
      status := 0x1103#32
      res := { Results.cleared with rState := zext 32 state, rBaud := baud, rDelay := delay } }) ∧
  (∀ s : State, uint s.inp.rxLen < 7 →
    exec .decHssU8 s = .next { s with status := 0x1111#32, res := Results.cleared })

/-- R122. -/
def Obligations.HighSpeedWordResponseIsDecoded : Prop :=
  opcode .decHssU32 = 0x12#8 ∧
  (∀ (s : State) (state baud : Word) (delay : Half),
    10 ≤ uint s.inp.rxLen → rxHolds s.inp (beBytes32 state ++ beBytes32 baud ++ beBytes16 delay) →
    exec .decHssU32 s = .next { s with
      status := 0x1203#32
      res := { Results.cleared with rState := state, rBaud := baud, rDelay := delay } }) ∧
  (∀ s : State, uint s.inp.rxLen < 10 →
    exec .decHssU32 s = .next { s with status := 0x1211#32, res := Results.cleared })

/-- R141. -/
def Obligations.MotorCommandResponseIsDecoded : Prop :=
  opcode .decMcs = 0x21#8 ∧
  (∀ (s : State) (pos force : Word) (power : Half) (temp : Byte) (volt errs : Half),
    15 ≤ uint s.inp.rxLen → rxHolds s.inp (tailBytes pos force power temp volt errs) →
    exec .decMcs s = .next { s with
      status := 0x2103#32
      res := { Results.cleared with
        rPos := pos, rForce := force, rPower := power, rTemp := temp, rVolt := volt, rErrs := errs } }) ∧
  (∀ s : State, uint s.inp.rxLen < 15 →
    exec .decMcs s = .next { s with status := 0x2111#32, res := Results.cleared })

/-- R161, its two layouts and its two errors. -/
def Obligations.MotorReadResponseIsDecoded : Prop :=
  opcode .decMrs = 0x31#8 ∧
  (∀ (s : State) (regval : Half) (mode : Byte) (pos force : Word) (power : Half) (temp : Byte) (volt errs : Half),
    argsWritten .decMrs s → uint s.inp.args[1] % 256 = 1 → 18 ≤ uint s.inp.rxLen →
    rxHolds s.inp (beBytes16 regval ++ [mode] ++ tailBytes pos force power temp volt errs) →
    exec .decMrs s = .next { s with
      status := 0x3103#32
      res := { Results.cleared with
        rRegval := zext 32 regval, rMode := mode,
        rPos := pos, rForce := force, rPower := power, rTemp := temp, rVolt := volt, rErrs := errs } }) ∧
  (∀ (s : State) (regval : Word) (mode : Byte) (pos force : Word) (power : Half) (temp : Byte) (volt errs : Half),
    argsWritten .decMrs s → uint s.inp.args[1] % 256 = 2 → 20 ≤ uint s.inp.rxLen →
    rxHolds s.inp (beBytes32 regval ++ [mode] ++ tailBytes pos force power temp volt errs) →
    exec .decMrs s = .next { s with
      status := 0x3103#32
      res := { Results.cleared with
        rRegval := regval, rMode := mode,
        rPos := pos, rForce := force, rPower := power, rTemp := temp, rVolt := volt, rErrs := errs } }) ∧
  (∀ s : State, argsWritten .decMrs s → uint s.inp.args[1] % 256 ≠ 1 → uint s.inp.args[1] % 256 ≠ 2 →
    exec .decMrs s = .next { s with status := 0x3131#32, res := Results.cleared }) ∧
  (∀ s : State, argsWritten .decMrs s →
    (uint s.inp.args[1] % 256 = 1 ∧ uint s.inp.rxLen < 18 ∨ uint s.inp.args[1] % 256 = 2 ∧ uint s.inp.rxLen < 20) →
    exec .decMrs s = .next { s with status := 0x3111#32, res := Results.cleared })

/-- R181. -/
def Obligations.MotorWriteResponseIsDecoded : Prop :=
  opcode .decMws = 0x41#8 ∧
  (∀ (s : State) (mode : Byte) (pos force : Word) (power : Half) (temp : Byte) (volt errs : Half),
    16 ≤ uint s.inp.rxLen → rxHolds s.inp ([mode] ++ tailBytes pos force power temp volt errs) →
    exec .decMws s = .next { s with
      status := 0x4103#32
      res := { Results.cleared with
        rMode := mode,
        rPos := pos, rForce := force, rPower := power, rTemp := temp, rVolt := volt, rErrs := errs } }) ∧
  (∀ s : State, uint s.inp.rxLen < 16 →
    exec .decMws s = .next { s with status := 0x4111#32, res := Results.cleared })

/-- R87 over the five decode operations at once: a payload shorter than the expected size of R85 leaves every result
register at 0 and reports FrameLengthError, even where RX holds no byte at all. -/
def Obligations.ShortPayloadGivesNoPartialDecode : Prop :=
  ∀ (i : Instr) (s : State) (n : Nat), argsWritten i s →
    expectedSize i (opWidth s.inp) = some n → uint s.inp.rxLen < n →
    exec i s = .next { s with res := Results.cleared, status := BitVec.ofNat 32 (uint (opcode i) * 256 + 0x11) }

/-- R88: a payload at least as long as the expected size decodes exactly as its first E bytes: with RX_LEN cut to E and
RX to its cells below E, the command reports the same. -/
def Obligations.TrailingBytesAreIgnored : Prop :=
  ∀ (i : Instr) (s : State) (n : Nat), argsWritten i s →
    expectedSize i (opWidth s.inp) = some n → n ≤ uint s.inp.rxLen →
    sameReport (exec i s)
      (exec i { s with
        inp := { s.inp with rxLen := BitVec.ofNat 8 n, rx := s.inp.rx.filter fun c => decide (c.1 < n) } })

/-- R89. The layout is fixed by OP and, for DEC.MRS, by the width ARG1[7:0]: two states that agree on these and on RX,
and whose lengths both reach the expected size of R85, report the same, whatever the two lengths are; below that size
FrameLengthError comes, whatever other layout the length fits. Then the two instances of the rule: 18 bytes, the full
size of the width-1 layout, given to DEC.MRS with width 2; and ten bytes given to DEC.HSS.U8, which takes RX[0..6] as the
7-byte layout and leaves the other three. (`argsWritten`: log 1.) -/
def Obligations.LayoutNeverComesFromTheLength : Prop :=
  (∀ (i : Instr) (s t : State) (n : Nat), argsWritten i s → argsWritten i t →
    (i = .decMrs → uint s.inp.args[1] % 256 = uint t.inp.args[1] % 256) → s.inp.rx = t.inp.rx →
    expectedSize i (opWidth s.inp) = some n →
    (n ≤ uint s.inp.rxLen → n ≤ uint t.inp.rxLen → sameReport (exec i s) (exec i t)) ∧
    (uint t.inp.rxLen < n → exec i t = .next { t with
      res := Results.cleared, status := BitVec.ofNat 32 (uint (opcode i) * 256 + 0x11) })) ∧
  expectedSize .decMrs 1 = some 18 ∧
  (∀ s : State, argsWritten .decMrs s → uint s.inp.args[1] % 256 = 2 → uint s.inp.rxLen = 18 →
    exec .decMrs s = .next { s with status := 0x3111#32, res := Results.cleared }) ∧
  (∀ (s : State) (state : Byte) (baud : Word) (delay : Half) (x y z : Byte),
    uint s.inp.rxLen = 10 → rxHolds s.inp ([state] ++ beBytes32 baud ++ beBytes16 delay ++ [x, y, z]) →
    exec .decHssU8 s = .next { s with
      status := 0x1103#32
      res := { Results.cleared with rState := zext 32 state, rBaud := baud, rDelay := delay } })

/-- R123, its example: the 10-byte payload of the u32 layout, given to DEC.HSS.U8, yields the wrong fields silently. -/
def Obligations.WrongHighSpeedLayoutGoesUnnoticed : Prop :=
  ∀ s : State, uint s.inp.rxLen = 10 →
    rxHolds s.inp [0x00#8, 0x00#8, 0x00#8, 0x01#8, 0x00#8, 0x09#8, 0x89#8, 0x68#8, 0x00#8, 0x50#8] →
    exec .decHssU8 s = .next { s with
      status := 0x1103#32
      res := { Results.cleared with rState := 0, rBaud := 256, rDelay := 2441 } }

/-! ### Errors, STATUS and the results of every command -/

/-- R204 with the causes of R200: the one error that a command reports, by priority: an OP outside the table, then a
register width that is not 1 or 2, then a payload too short for the expected size of R85. -/
def Obligations.ErrorIsChosenByPriority : Prop :=
  ∀ (op : Byte) (s t : State), issue op s = .next t →
    statusErr t.status =
      match decodeOp op with
      | .error _ => 2#4
      | .ok i =>
        if checksWidth i = true ∧ uint s.inp.args[1] % 256 ≠ 1 ∧ uint s.inp.args[1] % 256 ≠ 2 then 3#4
        else match expectedSize i (opWidth s.inp) with
          | some n => if uint s.inp.rxLen < n then 1#4 else 0#4
          | none => 0#4

/-- R203: a width that is not 1 or 2 gives ERR = 3, no result and no request, and leaves the inputs. -/
def Obligations.BadWidthIsAnArgumentError : Prop :=
  ∀ (i : Instr) (s : State), checksWidth i = true → argsWritten i s →
    uint s.inp.args[1] % 256 ≠ 1 → uint s.inp.args[1] % 256 ≠ 2 →
    exec i s = .next { s with res := Results.cleared, status := BitVec.ofNat 32 (uint (opcode i) * 256 + 0x31) }

/-- R27: what STATUS holds after a command. -/
def Obligations.StatusAfterEveryCommand : Prop :=
  ∀ (op : Byte) (s t : State), issue op s = .next t →
    ∃ err : BitVec 4, uint err ≤ 3 ∧
      uint t.status = uint op * 256 + uint err * 16 + (if err = 0 then 1 else 0) * 2 + 1 ∧
      statusDone t.status = true ∧ statusOk t.status = decide (err = 0) ∧
      statusErr t.status = err ∧ statusLastOp t.status = op ∧
      statusReservedLow t.status = 0 ∧ statusReservedHigh t.status = 0

/-- R31: after any command a result register that holds no result (R32: OK = 0, or not named by the rule of the
operation in LASTOP) reads what a cleared one reads, which is 0. -/
def Obligations.UnnamedResultsReadZero : Prop :=
  ∀ (op : Byte) (s t : State), issue op s = .next t →
    ∀ r : ResultReg, ¬ resultHolds t r →
      (readResult t.res r = .byte 0 ∨ readResult t.res r = .half 0 ∨ readResult t.res r = .word 0)

/-- R28: TX_FC and TX_LEN after a command, and the TX cells at and above TX_LEN. -/
def Obligations.RequestRegistersFollowTheCommand : Prop :=
  ∀ (op : Byte) (s t : State), issue op s = .next t →
    (∀ i, decodeOp op = .ok i → statusOk t.status = true →
      t.res.txFc = requestCode i ∧ t.res.txLen = requestLength i) ∧
    (statusOk t.status = false → t.res.txFc = 0 ∧ t.res.txLen = 0) ∧
    ∀ k : Fin 8, uint t.res.txLen ≤ k.val → t.res.tx[k] = 0

/-- R201: after a FrameLengthError the received length and the expected size are still to be read off the state. -/
def Obligations.ExpectedSizeIsRecoverable : Prop :=
  ∀ (op : Byte) (s t : State), issue op s = .next t → statusErr t.status = 1 →
    t.inp = s.inp ∧
    ∃ i n, decodeOp (statusLastOp t.status) = .ok i ∧ expectedSize i (opWidth t.inp) = some n ∧ uint t.inp.rxLen < n

/-- R74: a body writes each result register at most once, and only registers that the rule names (R29). -/
def Obligations.BodiesWriteNamedRegistersOnce : Prop :=
  ∀ (i : Instr) (inp : Inputs) (out : List ResultWrite), bodyOf i inp = .ok out →
    (out.map ResultWrite.reg).Nodup ∧ ∀ r, r ∈ out.map ResultWrite.reg ↔ r ∈ namedRegs i

/-- R78 with R243: the function code that a successful encode leaves in TX_FC leads, for either firmware layout, to a
decode operation of the same family of the opcode map (R70). -/
def Obligations.MatchingDecoderIsOfTheSameFamily : Prop :=
  ∀ (i : Instr) (s t : State), exec i s = .next t → statusOk t.status = true → t.res.txFc ≠ 0 →
    ∀ layout, ∃ d, matchingDecoder layout t.res.txFc = some d ∧ d.takesRx = true ∧
      (opcode d).extractLsb' 4 4 = (opcode i).extractLsb' 4 4

/-! ### What a command reads and changes -/

/-- R72: a command reads no bit of ARG0..ARG2 outside its operand fields, no RX cell at or above the expected size and
none at all when the payload is too short: states that agree on the operands report the same. The two states may differ
in which ARG registers have been written since reset; that this makes no difference is the model's choice (log 1,
DESIGN CHOICE). -/
def Obligations.CommandsReadOnlyTheirOperands : Prop :=
  ∀ (i : Instr) (s t : State), operandsAgree i s.inp t.inp → sameReport (exec i s) (exec i t)

/-- R60, its last sentence: STATUS and the result state are a function of OP, the ARG registers, RX_LEN and RX; issuing
the same command twice with unchanged inputs leaves the same state. The two states of the first clause may differ in which
ARG registers have been written since reset; that this makes no difference is the model's choice (log 1, DESIGN CHOICE). -/
def Obligations.CommandsAreFunctionsOfTheInputs : Prop :=
  (∀ (op : Byte) (s t : State), s.inp = t.inp → sameReport (issue op s) (issue op t)) ∧
  (∀ (op : Byte) (s t : State), issue op s = .next t → issue op t = .next t)

/-- R60 and R22 to R24: `HostIssue` changes only STATUS and the result state. -/
def Obligations.IssueChangesOnlyStatusAndResults : Prop :=
  ∀ (op : Byte) (s t : State), issue op s = .next t → t = { s with status := t.status, res := t.res }

/-- R232: a command whose inputs have all been written since reset answers a next state. -/
def Obligations.CommandsRunOnWrittenInputs : Prop :=
  ∀ (i : Instr) (s : State), inputsWritten i s → ∃ t, exec i s = .next t

/-- R25 for RX: a decode whose checks pass stops exactly when one of the cells that its rule reads has not been written
since reset. (For ARG registers the model departs from R25: log 1.) -/
def Obligations.DecodeStopsExactlyOnUnwrittenCells : Prop :=
  ∀ (i : Instr) (s : State) (n : Nat), expectedSize i (opWidth s.inp) = some n → n ≤ uint s.inp.rxLen →
    (exec i s = .fault .unwrittenInput ↔ ¬ rxWritten s.inp n)

/-- The model's choice (log 1): whether the host has written an ARG register changes nothing that a command does; an
unwritten one holds a value as any other. -/
def Obligations.UnwrittenArgumentsRunAsTheyStand : Prop :=
  ∀ (i : Instr) (s : State) (marks : Vector Bool 3),
    (∀ t, exec i s = .next t ↔ exec i { s with argWritten := marks } = .next { t with argWritten := marks } ∧
      t.argWritten = s.argWritten) ∧
    (exec i s = .fault .unwrittenInput ↔ exec i { s with argWritten := marks } = .fault .unwrittenInput)

/-! ### RX and TX as bytes -/

/-- R52: MemRead of two and of four bytes is the big-endian number of the cells; of one byte the cell. -/
def Obligations.MemReadIsBigEndian : Prop :=
  (∀ (inp : Inputs) (off : Nat) (h : off + 1 ≤ 256) (v : Byte),
    memRead1 inp off h = .ok v ↔ Memory.read inp.rx off = some v) ∧
  (∀ (inp : Inputs) (off : Nat) (h : off + 2 ≤ 256) (v : Half),
    memRead2 inp off h = .ok v ↔ ∃ a b, Memory.read inp.rx off = some a ∧ Memory.read inp.rx (off + 1) = some b ∧
      uint v = uint a * 256 + uint b) ∧
  (∀ (inp : Inputs) (off : Nat) (h : off + 4 ≤ 256) (v : Word),
    memRead4 inp off h = .ok v ↔ ∃ a b c d, Memory.read inp.rx off = some a ∧ Memory.read inp.rx (off + 1) = some b ∧
      Memory.read inp.rx (off + 2) = some c ∧ Memory.read inp.rx (off + 3) = some d ∧
      uint v = uint a * 16777216 + uint b * 65536 + uint c * 256 + uint d)

/-- R57: the halves of a 32-bit field. -/
def Obligations.HalvesOfAWordField : Prop :=
  ∀ (inp : Inputs) (off : Nat) (h : off + 4 ≤ 256) (v : Word), memRead4 inp off h = .ok v →
    memRead2 inp off (by omega) = .ok (v.extractLsb' 16 16) ∧
    memRead2 inp (off + 2) (by omega) = .ok (v.extractLsb' 0 16)

/-- R53: MemWrite stores byte k of the field, counted from its most significant byte, at TX[off + k], and leaves the
other TX cells. -/
def Obligations.MemWriteIsBigEndian : Prop :=
  (∀ (r : Results) (off : Nat) (v : Byte) (h : off + 1 ≤ 8) (k : Fin 8),
    (applyWrites r (memWrite1 off v h)).tx[k] = if k.val = off then v else r.tx[k]) ∧
  (∀ (r : Results) (off : Nat) (v : Half) (h : off + 2 ≤ 8) (k : Fin 8),
    uint (applyWrites r (memWrite2 off v h)).tx[k] =
      if off ≤ k.val ∧ k.val < off + 2 then uint v / 2 ^ (8 * (1 - (k.val - off))) % 256 else uint r.tx[k]) ∧
  (∀ (r : Results) (off : Nat) (v : Word) (h : off + 4 ≤ 8) (k : Fin 8),
    uint (applyWrites r (memWrite4 off v h)).tx[k] =
      if off ≤ k.val ∧ k.val < off + 4 then uint v / 2 ^ (8 * (3 - (k.val - off))) % 256 else uint r.tx[k])

/-! ### The host's operations -/

/-- R62 with R22 to R24: a `HostRead` right after a `HostWrite*` of the same register or cell returns the value written,
through two steps of the machine. -/
def Obligations.HostReadsWhatItWrote : Prop :=
  ∀ (s : State) (rest : List Event),
    (∀ i v, s.pending = .host (.writeArg i v) :: .host (.read (.arg i)) :: rest →
      ∃ t, step s = .next t ∧ step t = .next { t with pending := rest, hostReads := s.hostReads ++ [.word v] }) ∧
    (∀ i b, s.pending = .host (.writeRx i b) :: .host (.read (.rx i)) :: rest →
      ∃ t, step s = .next t ∧ step t = .next { t with pending := rest, hostReads := s.hostReads ++ [.byte b] }) ∧
    (∀ n, s.pending = .host (.writeRxLen n) :: .host (.read .rxLen) :: rest →
      ∃ t, step s = .next t ∧ step t = .next { t with pending := rest, hostReads := s.hostReads ++ [.byte n] })

/-- R60: "`HostWrite*` operations change only their target": every other register or cell that a host can name reads
as before. -/
def Obligations.HostWritesChangeOnlyTheirTarget : Prop :=
  ∀ s : State,
    (∀ i v, ∃ t, perform (.writeArg i v) s = .next t ∧ readReg t (.arg i) = .ok (.word v) ∧
      ∀ r, r ≠ .arg i → readReg t r = readReg s r) ∧
    (∀ i b, ∃ t, perform (.writeRx i b) s = .next t ∧ readReg t (.rx i) = .ok (.byte b) ∧
      ∀ r, r ≠ .rx i → readReg t r = readReg s r) ∧
    (∀ n, ∃ t, perform (.writeRxLen n) s = .next t ∧ readReg t .rxLen = .ok (.byte n) ∧
      ∀ r, r ≠ .rxLen → readReg t r = readReg s r)

/-- R33, R59, R60: `HostRead` answers the current value of the register or cell and changes none; the one read that
stops is of an RX cell that nothing has written since reset (log 2). That an ARG register which nothing has written since
reset answers the value it holds is the model's choice (log 1, DESIGN CHOICE). -/
def Obligations.HostReadOnlyReads : Prop :=
  ∀ (s : State) (r : HostReg),
    (perform (.read r) s = .fault .unwrittenInput ↔ ∃ i, r = .rx i ∧ Memory.read s.inp.rx i.val = none) ∧
    ((∀ i, r = .rx i → (Memory.read s.inp.rx i.val).isSome) →
      ∃ t v, perform (.read r) s = .next t ∧ readReg s r = .ok v ∧ t.hostReads = s.hostReads ++ [v] ∧
        t.pending = s.pending ∧ ∀ q, readReg t q = readReg s q)

/-! ### Reset, the invariant and the end of a run -/

/-- R34, the values it gives: STATUS, RX_LEN and every result register 0, and no RX cell holding a value. -/
def Obligations.ResetClearsStatusAndResults : Prop :=
  State.reset.status = 0 ∧ State.reset.inp.rxLen = 0 ∧ (∀ k, Memory.read State.reset.inp.rx k = none) ∧
  (∀ r : ResultReg, readResult State.reset.res r = .byte 0 ∨ readResult State.reset.res r = .half 0 ∨
    readResult State.reset.res r = .word 0)

/-- R230: a platform reset puts the block into its reset state, whatever it held. -/
def Obligations.PlatformResetRestoresTheBlock : Prop :=
  ∀ (s : State) (rest : List Event), s.pending = .reset :: rest →
    ∃ t, step s = .next t ∧ t.pending = rest ∧ t.hostReads = s.hostReads ∧ t.argWritten = State.reset.argWritten ∧
      ∀ r, readReg t r = readReg State.reset r

/-- The invariant holds at reset. -/
def Obligations.ResetMeetsTheInvariant : Prop := Inv State.reset

/-- Every step from a state that meets the invariant leads to one that meets it. -/
def Obligations.EveryStepKeepsTheInvariant : Prop :=
  ∀ s t : State, Inv s → step s = .next t → Inv t

/-- R247: a step takes exactly one pending event, and as many steps as there are events leave none pending, unless one
of them stops. -/
def Obligations.RunsEndAfterTheLastOperation : Prop :=
  (∀ s t : State, step s = .next t → t.pending = s.pending.tail) ∧
  ∀ s t : State, Host.Core.run Sys2Proof.core s.pending.length s = .next t → t.pending = []

/-! ### Assembly -/

/-- R93: the host operations of `rx=[b0 ... bn-1]`, taken one by one, leave exactly those bytes in RX[0..n-1], n in
RX_LEN, and the cells above as they were. -/
def Obligations.RxOperandFillsTheBuffer : Prop :=
  ∀ (s : State) (bs : List Nat), rxWellFormed bs = true →
    ∃ t, Host.Core.run Sys2Proof.core (bs.length + 1) (s.withProgram (rxWrites (some bs))) = .next t ∧
      uint t.inp.rxLen = bs.length ∧ rxHolds t.inp (bs.map (BitVec.ofNat 8)) ∧
      (∀ k, bs.length ≤ k → Memory.read t.inp.rx k = Memory.read s.inp.rx k) ∧
      t.inp.args = s.inp.args ∧ t.status = s.status ∧ t.res = s.res ∧ t.pending = []

/-- R105 with R93, for every command line of the three packer operations, with any of its operands in any order. Such a
line is refused where an integer is outside -2^31 .. 2^32 - 1. Otherwise it stands for one write for each operand, in the
order written, of the word that stands for its integer, and then its OP. That the line is refused, where R93 would write
x mod 2^32, is the model's choice between the two rules (log 6, DESIGN CHOICE). -/
def Obligations.PackerTakesExactlyThe32BitIntegers : Prop :=
  (∀ k, Instr.packSplit.keyArg k = if k = .value then some 0 else none) ∧
  (∀ i ∈ [Instr.unpackS32, .unpackU32], ∀ k,
    i.keyArg k = if k = .low then some 0 else if k = .high then some 1 else none) ∧
  ∀ i ∈ [Instr.packSplit, .unpackS32, .unpackU32], ∀ args : List (Key × Int),
    (∀ a ∈ args, (i.keyArg a.1).isSome) →
    ((∃ a ∈ args, a.2 < -2147483648 ∨ 4294967295 < a.2) → assemble [.command ⟨i, args, none⟩] = none) ∧
    ((∀ a ∈ args, -2147483648 ≤ a.2 ∧ a.2 ≤ 4294967295) →
      ∃ writes : List HostOp, assemble [.command ⟨i, args, none⟩] = some (writes ++ [.issue (opcode i)]) ∧
        List.Forall₂ (fun a o => ∃ r v, i.keyArg a.1 = some r ∧ o = .writeArg r v ∧ standsFor v a.2) args writes)
end

