-- ==== Sys2Proof/Laws/State.lean ====
section
/-! SUPPORT. One lemma for each field under each update of the state, so that no later proof unfolds a record update. -/

namespace Sys2Proof.Machine

/-! ### A failed command -/

@[simp] theorem raiseError_inp (op : Byte) (e : CmdError) (s : State) : (raiseError op e s).inp = s.inp := rfl
@[simp] theorem raiseError_status (op : Byte) (e : CmdError) (s : State) :
    (raiseError op e s).status = statusWord op (errorCode e) := rfl
@[simp] theorem raiseError_res (op : Byte) (e : CmdError) (s : State) :
    (raiseError op e s).res = Results.cleared := rfl
@[simp] theorem raiseError_argWritten (op : Byte) (e : CmdError) (s : State) :
    (raiseError op e s).argWritten = s.argWritten := rfl
@[simp] theorem raiseError_pending (op : Byte) (e : CmdError) (s : State) :
    (raiseError op e s).pending = s.pending := rfl
@[simp] theorem raiseError_hostReads (op : Byte) (e : CmdError) (s : State) :
    (raiseError op e s).hostReads = s.hostReads := rfl

/-! ### A successful command -/

@[simp] theorem complete_inp (op : Byte) (out : List ResultWrite) (s : State) : (complete op out s).inp = s.inp := rfl
@[simp] theorem complete_status (op : Byte) (out : List ResultWrite) (s : State) :
    (complete op out s).status = statusWord op 0 := rfl
@[simp] theorem complete_res (op : Byte) (out : List ResultWrite) (s : State) :
    (complete op out s).res = applyWrites Results.cleared out := rfl
@[simp] theorem complete_argWritten (op : Byte) (out : List ResultWrite) (s : State) :
    (complete op out s).argWritten = s.argWritten := rfl
@[simp] theorem complete_pending (op : Byte) (out : List ResultWrite) (s : State) :
    (complete op out s).pending = s.pending := rfl
@[simp] theorem complete_hostReads (op : Byte) (out : List ResultWrite) (s : State) :
    (complete op out s).hostReads = s.hostReads := rfl

/-! ### The host's writes -/

@[simp] theorem hostWriteArg_args (i : Fin 3) (v : Word) (s : State) :
    (hostWriteArg i v s).inp.args = s.inp.args.set i v := rfl
@[simp] theorem hostWriteArg_rxLen (i : Fin 3) (v : Word) (s : State) :
    (hostWriteArg i v s).inp.rxLen = s.inp.rxLen := rfl
@[simp] theorem hostWriteArg_rx (i : Fin 3) (v : Word) (s : State) : (hostWriteArg i v s).inp.rx = s.inp.rx := rfl
@[simp] theorem hostWriteArg_status (i : Fin 3) (v : Word) (s : State) : (hostWriteArg i v s).status = s.status := rfl
@[simp] theorem hostWriteArg_res (i : Fin 3) (v : Word) (s : State) : (hostWriteArg i v s).res = s.res := rfl
@[simp] theorem hostWriteArg_argWritten (i : Fin 3) (v : Word) (s : State) :
    (hostWriteArg i v s).argWritten = s.argWritten.set i true := rfl
@[simp] theorem hostWriteArg_pending (i : Fin 3) (v : Word) (s : State) :
    (hostWriteArg i v s).pending = s.pending := rfl
@[simp] theorem hostWriteArg_hostReads (i : Fin 3) (v : Word) (s : State) :
    (hostWriteArg i v s).hostReads = s.hostReads := rfl

@[simp] theorem hostWriteRx_args (i : Fin 256) (b : Byte) (s : State) :
    (hostWriteRx i b s).inp.args = s.inp.args := rfl
@[simp] theorem hostWriteRx_rxLen (i : Fin 256) (b : Byte) (s : State) :
    (hostWriteRx i b s).inp.rxLen = s.inp.rxLen := rfl
@[simp] theorem hostWriteRx_rx (i : Fin 256) (b : Byte) (s : State) :
    (hostWriteRx i b s).inp.rx = Memory.write s.inp.rx i.val b := rfl
@[simp] theorem hostWriteRx_status (i : Fin 256) (b : Byte) (s : State) : (hostWriteRx i b s).status = s.status := rfl
@[simp] theorem hostWriteRx_res (i : Fin 256) (b : Byte) (s : State) : (hostWriteRx i b s).res = s.res := rfl
@[simp] theorem hostWriteRx_argWritten (i : Fin 256) (b : Byte) (s : State) :
    (hostWriteRx i b s).argWritten = s.argWritten := rfl
@[simp] theorem hostWriteRx_pending (i : Fin 256) (b : Byte) (s : State) :
    (hostWriteRx i b s).pending = s.pending := rfl
@[simp] theorem hostWriteRx_hostReads (i : Fin 256) (b : Byte) (s : State) :
    (hostWriteRx i b s).hostReads = s.hostReads := rfl

@[simp] theorem hostWriteRxLen_args (n : Byte) (s : State) : (hostWriteRxLen n s).inp.args = s.inp.args := rfl
@[simp] theorem hostWriteRxLen_rxLen (n : Byte) (s : State) : (hostWriteRxLen n s).inp.rxLen = n := rfl
@[simp] theorem hostWriteRxLen_rx (n : Byte) (s : State) : (hostWriteRxLen n s).inp.rx = s.inp.rx := rfl
@[simp] theorem hostWriteRxLen_status (n : Byte) (s : State) : (hostWriteRxLen n s).status = s.status := rfl
@[simp] theorem hostWriteRxLen_res (n : Byte) (s : State) : (hostWriteRxLen n s).res = s.res := rfl
@[simp] theorem hostWriteRxLen_argWritten (n : Byte) (s : State) :
    (hostWriteRxLen n s).argWritten = s.argWritten := rfl
@[simp] theorem hostWriteRxLen_pending (n : Byte) (s : State) : (hostWriteRxLen n s).pending = s.pending := rfl
@[simp] theorem hostWriteRxLen_hostReads (n : Byte) (s : State) :
    (hostWriteRxLen n s).hostReads = s.hostReads := rfl

/-! ### A platform reset -/

@[simp] theorem platformReset_inp (s : State) : (platformReset s).inp = Inputs.reset := rfl
@[simp] theorem platformReset_status (s : State) : (platformReset s).status = 0 := rfl
@[simp] theorem platformReset_res (s : State) : (platformReset s).res = Results.cleared := rfl
@[simp] theorem platformReset_argWritten (s : State) : (platformReset s).argWritten = #v[false, false, false] := rfl
@[simp] theorem platformReset_pending (s : State) : (platformReset s).pending = s.pending := rfl
@[simp] theorem platformReset_hostReads (s : State) : (platformReset s).hostReads = s.hostReads := rfl

/-! ### What is placed from outside -/

@[simp] theorem withFetchWord_pending (s : State) (nbits w : Nat) :
    (s.withFetchWord nbits w).pending = .host (.issue (tableByte nbits w)) :: s.pending := rfl
@[simp] theorem withFetchWord_inp (s : State) (nbits w : Nat) : (s.withFetchWord nbits w).inp = s.inp := rfl
@[simp] theorem withFetchWord_status (s : State) (nbits w : Nat) : (s.withFetchWord nbits w).status = s.status := rfl
@[simp] theorem withFetchWord_res (s : State) (nbits w : Nat) : (s.withFetchWord nbits w).res = s.res := rfl
@[simp] theorem withProgram_pending (s : State) (ops : List HostOp) :
    (s.withProgram ops).pending = ops.map Event.host := rfl
@[simp] theorem withProgram_inp (s : State) (ops : List HostOp) : (s.withProgram ops).inp = s.inp := rfl

end Sys2Proof.Machine
end

