-- ==== Sys2Proof/Laws/Ops.lean ====
section
/-! SUPPORT. One lemma for each shared operation that says everything it can do, to be cited instead of unfolding it. -/

namespace Sys2Proof.Machine

/-! ### Checks -/

theorem checkLen_eq_ok {inp : Inputs} {n : Nat} (h : n ≤ uint inp.rxLen) : checkLen inp n = .ok () :=
  if_neg (Nat.not_lt.2 h)

theorem checkLen_eq_error {inp : Inputs} {n : Nat} (h : uint inp.rxLen < n) :
    checkLen inp n = .error (.raised (.frameLength n (uint inp.rxLen))) :=
  if_pos h

/-- CheckLen passes, or raises FrameLengthError. -/
theorem checkLen_cases (inp : Inputs) (n : Nat) :
    (n ≤ uint inp.rxLen ∧ checkLen inp n = .ok ()) ∨
    (uint inp.rxLen < n ∧ checkLen inp n = .error (.raised (.frameLength n (uint inp.rxLen)))) :=
  (Nat.lt_or_ge (uint inp.rxLen) n).symm.imp (fun h => ⟨h, checkLen_eq_ok h⟩) (fun h => ⟨h, checkLen_eq_error h⟩)

theorem checkWidth_eq_ok {w : Byte} (h : w = 1 ∨ w = 2) : checkWidth w = .ok () := if_pos h

theorem checkWidth_eq_error {w : Byte} (h1 : w ≠ 1) (h2 : w ≠ 2) :
    checkWidth w = .error (.raised (.argument .registerWidth)) :=
  if_neg (not_or.2 ⟨h1, h2⟩)

/-! ### Reading RX -/

theorem rxCell_eq_ok {inp : Inputs} {k : Fin 256} {b : Byte} (h : Memory.read inp.rx k.val = some b) :
    rxCell inp k = .ok b := by
  simp [rxCell, h]

theorem rxCell_eq_fault {inp : Inputs} {k : Fin 256} (h : Memory.read inp.rx k.val = none) :
    rxCell inp k = .error (.fault .unwrittenInput) := by
  simp [rxCell, h]

/-- A cell answers its byte, or faults because nothing has written it. -/
theorem rxCell_cases (inp : Inputs) (k : Fin 256) :
    (∃ b, Memory.read inp.rx k.val = some b ∧ rxCell inp k = .ok b) ∨
    (Memory.read inp.rx k.val = none ∧ rxCell inp k = .error (.fault .unwrittenInput)) := by
  cases h : Memory.read inp.rx k.val with
  | none => exact .inr ⟨rfl, rxCell_eq_fault h⟩
  | some b => exact .inl ⟨b, rfl, rxCell_eq_ok h⟩

theorem memRead1_eq_ok {inp : Inputs} {off : Nat} {h : off + 1 ≤ 256} {b : Byte}
    (h0 : Memory.read inp.rx off = some b) : memRead1 inp off h = .ok b :=
  rxCell_eq_ok h0

theorem memRead2_eq_ok {inp : Inputs} {off : Nat} {h : off + 2 ≤ 256} {b0 b1 : Byte}
    (h0 : Memory.read inp.rx off = some b0) (h1 : Memory.read inp.rx (off + 1) = some b1) :
    memRead2 inp off h = .ok (b0 ++ b1) := by
  unfold memRead2
  rw [rxCell_eq_ok h0, rxCell_eq_ok h1]
  rfl

theorem memRead4_eq_ok {inp : Inputs} {off : Nat} {h : off + 4 ≤ 256} {b0 b1 b2 b3 : Byte}
    (h0 : Memory.read inp.rx off = some b0) (h1 : Memory.read inp.rx (off + 1) = some b1)
    (h2 : Memory.read inp.rx (off + 2) = some b2) (h3 : Memory.read inp.rx (off + 3) = some b3) :
    memRead4 inp off h = .ok (b0 ++ b1 ++ b2 ++ b3) := by
  unfold memRead4
  rw [rxCell_eq_ok h0, rxCell_eq_ok h1, rxCell_eq_ok h2, rxCell_eq_ok h3]
  rfl

/-! ### Big-endian bytes put together again -/

theorem beBytes16_append (v : Half) : v.extractLsb' 8 8 ++ v.extractLsb' 0 8 = v := by
  apply BitVec.eq_of_getLsbD_eq
  intro i hi
  simp only [BitVec.getLsbD_append, BitVec.getLsbD_extractLsb']
  by_cases h : i < 8
  · simp [h]
  · have : i - 8 < 8 := by omega
    have e : 8 + (i - 8) = i := by omega
    simp [h, this, e]

theorem beBytes32_append (v : Word) :
    v.extractLsb' 24 8 ++ v.extractLsb' 16 8 ++ v.extractLsb' 8 8 ++ v.extractLsb' 0 8 = v := by
  apply BitVec.eq_of_getLsbD_eq
  intro i hi
  simp only [BitVec.getLsbD_append, BitVec.getLsbD_extractLsb']
  by_cases h0 : i < 8
  · simp [h0]
  · by_cases h1 : i < 16
    · have a : i - 8 < 8 := by omega
      have e : 8 + (i - 8) = i := by omega
      simp [h0, a, e]
    · by_cases h2 : i < 24
      · have a : ¬ i - 8 < 8 := by omega
        have b : i - 8 - 8 < 8 := by omega
        have e : 16 + (i - 8 - 8) = i := by omega
        simp [h0, a, b, e]
      · have a : ¬ i - 8 < 8 := by omega
        have b : ¬ i - 8 - 8 < 8 := by omega
        have c : i - 8 - 8 - 8 < 8 := by omega
        have e : 24 + (i - 8 - 8 - 8) = i := by omega
        simp [h0, a, b, c, e]

/-! ### Result-register writes -/

@[simp] theorem applyWrites_nil (r : Results) : applyWrites r [] = r := rfl

theorem applyWrites_cons (r : Results) (w : ResultWrite) (out : List ResultWrite) :
    applyWrites r (w :: out) = applyWrites (applyWrite r w) out := rfl

theorem applyWrites_append (r : Results) (a b : List ResultWrite) :
    applyWrites r (a ++ b) = applyWrites (applyWrites r a) b :=
  List.foldl_append

/-- A write leaves every other result register as it was. -/
theorem readResult_applyWrite_other (r : Results) (w : ResultWrite) (reg : ResultReg) (h : w.reg ≠ reg) :
    readResult (applyWrite r w) reg = readResult r reg := by
  cases w <;> cases reg <;> first
    | rfl
    | exact absurd rfl h
    | (rename_i i v j
       have : i.val ≠ j.val := fun e => h (by simp [ResultWrite.reg, Fin.ext e])
       simp [readResult, applyWrite, this])

/-- The writes of a body leave every result register that none of them names as it was. -/
theorem readResult_applyWrites_other (out : List ResultWrite) (r : Results) (reg : ResultReg)
    (h : ∀ w ∈ out, w.reg ≠ reg) : readResult (applyWrites r out) reg = readResult r reg := by
  induction out generalizing r with
  | nil => rfl
  | cons w rest ih =>
    rw [applyWrites_cons, ih _ fun x hx => h x (List.mem_cons_of_mem _ hx)]
    exact readResult_applyWrite_other r w reg (h w List.mem_cons_self)

/-! ### The command frame -/

/-- Everything a command can end in: the body's results, an error, or a fault of the model. -/
theorem commandFrame_cases (op : Byte) (body : Body) (s : State) :
    (∃ out, body = .ok out ∧ commandFrame op body s = .next (complete op out s)) ∨
    (∃ e, body = .error (.raised e) ∧ commandFrame op body s = .next (raiseError op e s)) ∨
    (∃ f, body = .error (.fault f) ∧ commandFrame op body s = .fault f) := by
  match body with
  | .ok out => exact .inl ⟨out, rfl, rfl⟩
  | .error (.raised e) => exact .inr (.inl ⟨e, rfl, rfl⟩)
  | .error (.fault f) => exact .inr (.inr ⟨f, rfl, rfl⟩)

/-- If a command answers a next state, it completed or raised an error. -/
theorem commandFrame_eq_next {op : Byte} {body : Body} {s t : State} (h : commandFrame op body s = .next t) :
    (∃ out, body = .ok out ∧ t = complete op out s) ∨ (∃ e, body = .error (.raised e) ∧ t = raiseError op e s) := by
  rcases commandFrame_cases op body s with ⟨out, hb, hf⟩ | ⟨e, hb, hf⟩ | ⟨f, hb, hf⟩
  · exact .inl ⟨out, hb, by rw [hf] at h; exact (Host.Outcome.next.inj h).symm⟩
  · exact .inr ⟨e, hb, by rw [hf] at h; exact (Host.Outcome.next.inj h).symm⟩
  · rw [hf] at h; cases h

/-- Every operation is its body in the frame of R74, under its own OP. -/
theorem exec_eq_commandFrame (i : Instr) (s : State) : exec i s = commandFrame (opcode i) (bodyOf i s.inp) s := by
  cases i <;> rfl

/-! ### Host reads -/

/-- A host read answers the named value and records it, or faults on an RX cell that nothing has written. -/
theorem hostRead_cases (r : HostReg) (s : State) :
    (∃ v, readReg s r = .ok v ∧ hostRead r s = .next { s with hostReads := s.hostReads ++ [v] }) ∨
    (∃ i, r = .rx i ∧ Memory.read s.inp.rx i.val = none ∧ hostRead r s = .fault .unwrittenInput) := by
  cases r with
  | rx i =>
    cases h : Memory.read s.inp.rx i.val with
    | some b => exact .inl ⟨.byte b, by simp [readReg, h], by simp [hostRead, readReg, h]⟩
    | none => exact .inr ⟨i, rfl, h, by simp [hostRead, readReg, h]⟩
  | arg i => exact .inl ⟨_, rfl, rfl⟩
  | rxLen => exact .inl ⟨_, rfl, rfl⟩
  | status => exact .inl ⟨_, rfl, rfl⟩
  | result r => exact .inl ⟨_, rfl, rfl⟩

/-! ### Steps -/

/-- What one step can do when it answers a next state. -/
theorem step_cases {s t : State} (h : step s = .next t) :
    (s.pending = [] ∧ t = s) ∨
    (∃ e rest, s.pending = e :: rest ∧ occur e { s with pending := rest } = .next t) := by
  unfold step nextEvent at h
  cases hp : s.pending with
  | nil => rw [hp] at h; exact .inl ⟨rfl, (Host.Outcome.next.inj h).symm⟩
  | cons e rest => rw [hp] at h; exact .inr ⟨e, rest, rfl, h⟩

/-- What an issued OP can do when it answers a next state. -/
theorem issue_cases (op : Byte) (s : State) :
    (∃ i, decodeOp op = .ok i ∧ issue op s = exec i s) ∨
    (∃ e, decodeOp op = .error e ∧ issue op s = .next (raiseError op (.illegalOperation op) s)) := by
  unfold issue
  cases decodeOp op with
  | ok i => exact .inl ⟨i, rfl, rfl⟩
  | error e => exact .inr ⟨e, rfl, rfl⟩

end Sys2Proof.Machine
end

