-- ==== Sys2Proof/Laws/PerInstr.lean ====
section
/-! SUPPORT. Families of statements made for each instruction. -/

/-- The encoding of an operation is one byte, and as an opcode-table word the decoder reads it back. -/
def Sys2Proof.Laws.TableWord.Statement (i : Sys2Proof.Instr) : Prop :=
  (Sys2Proof.encode i).length = 1 ∧ Sys2Proof.decodeTableWord 8 (Sys2Proof.opcode i).toNat = some i

namespace Sys2Proof.Laws.TableWord

theorem packSplit : Statement .packSplit := by unfold Statement; decide
theorem unpackS32 : Statement .unpackS32 := by unfold Statement; decide
theorem unpackU32 : Statement .unpackU32 := by unfold Statement; decide
theorem encHss : Statement .encHss := by unfold Statement; decide
theorem decHssU8 : Statement .decHssU8 := by unfold Statement; decide
theorem decHssU32 : Statement .decHssU32 := by unfold Statement; decide
theorem encMcs : Statement .encMcs := by unfold Statement; decide
theorem decMcs : Statement .decMcs := by unfold Statement; decide
theorem encMrs : Statement .encMrs := by unfold Statement; decide
theorem decMrs : Statement .decMrs := by unfold Statement; decide
theorem encMws : Statement .encMws := by unfold Statement; decide
theorem decMws : Statement .decMws := by unfold Statement; decide

end Sys2Proof.Laws.TableWord
end

