-- ==== Sys2Proof/Laws/Reads.lean ====
section
/-! SUPPORT. What reading RX can do: MemRead and the telemetry tail either answer or fault on a cell that nothing has
written, and on a payload laid out as the spec says they answer its fields. -/

namespace Sys2Proof.Machine

theorem ok_bind {α β : Type} (a : α) (f : α → Except Halt β) : (Except.ok a >>= f) = f a := rfl

theorem error_bind {α β : Type} (e : Halt) (f : α → Except Halt β) : (Except.error e >>= f) = .error e := rfl

/-- A FrameLengthError ends a command with ERR = 1, whatever the lengths. -/
theorem raiseError_frameLength (op : Byte) (n m : Nat) (s : State) :
    raiseError op (.frameLength n m) s = { s with res := Results.cleared, status := statusWord op 1 } := rfl

/-- A reader of the `n` cells from `off`: it answers where all of them are written, and else faults. -/
def Reads {α : Type} (inp : Inputs) (off n : Nat) (x : Except Halt α) : Prop :=
  ((∀ j < n, (Memory.read inp.rx (off + j)).isSome) ∧ ∃ v, x = .ok v) ∨
  ((∃ j < n, Memory.read inp.rx (off + j) = none) ∧ x = .error (.fault .unwrittenInput))

theorem reads_cell (inp : Inputs) (k : Nat) (h : k < 256) : Reads inp k 1 (rxCell inp ⟨k, h⟩) := by
  rcases rxCell_cases inp ⟨k, h⟩ with ⟨b, hb, hx⟩ | ⟨hb, hx⟩
  · refine .inl ⟨fun j hj => ?_, b, hx⟩
    obtain rfl : j = 0 := by omega
    exact Option.isSome_iff_exists.2 ⟨b, hb⟩
  · exact .inr ⟨⟨0, by omega, hb⟩, hx⟩

/-- One reader after another, over adjacent cells. -/
theorem reads_bind {α β : Type} {inp : Inputs} {off n m : Nat} {x : Except Halt α} {f : α → Except Halt β}
    (hx : Reads inp off n x) (hf : ∀ v, Reads inp (off + n) m (f v)) : Reads inp off (n + m) (x >>= f) := by
  rcases hx with ⟨hw, v, rfl⟩ | ⟨⟨j, hj, hn⟩, rfl⟩
  · rw [ok_bind]
    rcases hf v with ⟨hw', hv⟩ | ⟨⟨j, hj, hn⟩, hv⟩
    · refine .inl ⟨fun j hj => ?_, hv⟩
      by_cases h : j < n
      · exact hw j h
      · have := hw' (j - n) (by omega)
        rwa [show off + n + (j - n) = off + j by omega] at this
    · exact .inr ⟨⟨n + j, by omega, by rwa [← Nat.add_assoc]⟩, hv⟩
  · exact .inr ⟨⟨j, by omega, hn⟩, rfl⟩

theorem reads_pure {α : Type} (inp : Inputs) (off : Nat) (v : α) : Reads inp off 0 (pure v : Except Halt α) :=
  .inl ⟨fun _ h => absurd h (Nat.not_lt_zero _), v, rfl⟩

theorem memRead1_reads (inp : Inputs) (off : Nat) (h : off + 1 ≤ 256) : Reads inp off 1 (memRead1 inp off h) :=
  reads_cell inp off (by omega)

theorem memRead2_reads (inp : Inputs) (off : Nat) (h : off + 2 ≤ 256) : Reads inp off 2 (memRead2 inp off h) :=
  reads_bind (reads_cell inp off (by omega)) fun _ =>
    reads_bind (reads_cell inp (off + 1) (by omega)) fun _ => reads_pure inp _ _

theorem memRead4_reads (inp : Inputs) (off : Nat) (h : off + 4 ≤ 256) : Reads inp off 4 (memRead4 inp off h) :=
  reads_bind (reads_cell inp off (by omega)) fun _ =>
    reads_bind (reads_cell inp (off + 1) (by omega)) fun _ =>
      reads_bind (reads_cell inp (off + 1 + 1) (by omega)) fun _ =>
        reads_bind (reads_cell inp (off + 1 + 1 + 1) (by omega)) fun _ => reads_pure inp _ _

theorem decodeTail_reads (inp : Inputs) (b : Nat) (h : b + 15 ≤ 256) : Reads inp b 15 (decodeTail inp b h) :=
  reads_bind (memRead4_reads inp b (by omega)) fun _ =>
    reads_bind (memRead4_reads inp (b + 4) (by omega)) fun _ =>
      reads_bind (memRead2_reads inp (b + 4 + 4) (by omega)) fun _ =>
        reads_bind (memRead1_reads inp (b + 4 + 4 + 2) (by omega)) fun _ =>
          reads_bind (memRead2_reads inp (b + 4 + 4 + 2 + 1) (by omega)) fun _ =>
            reads_bind (memRead2_reads inp (b + 4 + 4 + 2 + 1 + 2) (by omega)) fun _ => reads_pure inp _ _

/-! ### Fields of a payload laid out in RX -/

theorem memRead1_eq_field {inp : Inputs} {off : Nat} {h : off + 1 ≤ 256} {bs pre post : List Byte} {v : Byte}
    (hr : rxHolds inp bs) (hb : bs = pre ++ ([v] ++ post)) (hl : pre.length = off) : memRead1 inp off h = .ok v := by
  subst hb hl
  have g := hr pre.length (by simp)
  refine memRead1_eq_ok (g.trans ?_)
  simp

theorem memRead2_eq_field {inp : Inputs} {off : Nat} {h : off + 2 ≤ 256} {bs pre post : List Byte} {v : Half}
    (hr : rxHolds inp bs) (hb : bs = pre ++ (beBytes16 v ++ post)) (hl : pre.length = off) :
    memRead2 inp off h = .ok v := by
  subst hb hl
  have g := fun k hk => hr (pre.length + k) hk
  rw [memRead2_eq_ok (off := pre.length) (b0 := v.extractLsb' 8 8) (b1 := v.extractLsb' 0 8)
    ((g 0 (by simp [beBytes16])).trans (by simp [beBytes16]))
    ((g 1 (by simp [beBytes16])).trans (by simp [beBytes16]))]
  rw [beBytes16_append]

theorem memRead4_eq_field {inp : Inputs} {off : Nat} {h : off + 4 ≤ 256} {bs pre post : List Byte} {v : Word}
    (hr : rxHolds inp bs) (hb : bs = pre ++ (beBytes32 v ++ post)) (hl : pre.length = off) :
    memRead4 inp off h = .ok v := by
  subst hb hl
  have g := fun k hk => hr (pre.length + k) hk
  rw [memRead4_eq_ok (off := pre.length) (b0 := v.extractLsb' 24 8) (b1 := v.extractLsb' 16 8) (b2 := v.extractLsb' 8 8)
    (b3 := v.extractLsb' 0 8)
    ((g 0 (by simp [beBytes32])).trans (by simp [beBytes32]))
    ((g 1 (by simp [beBytes32])).trans (by simp [beBytes32]))
    ((g 2 (by simp [beBytes32])).trans (by simp [beBytes32]))
    ((g 3 (by simp [beBytes32])).trans (by simp [beBytes32]))]
  rw [beBytes32_append]

/-- DecodeTail on a payload that holds the tail of R83 at its offset. -/
theorem decodeTail_eq_ok {inp : Inputs} {b : Nat} {h : b + 15 ≤ 256} {bs pre : List Byte}
    (pos force : Word) (power : Half) (temp : Byte) (volt errs : Half)
    (hr : rxHolds inp bs) (hb : bs = pre ++ tailBytes pos force power temp volt errs) (hl : pre.length = b) :
    decodeTail inp b h =
      .ok [.rPos pos, .rForce force, .rPower power, .rTemp temp, .rVolt volt, .rErrs errs] := by
  subst hb hl
  unfold decodeTail
  rw [memRead4_eq_field (pre := pre) (v := pos) hr (by simp [tailBytes]; rfl) (by simp)]
  rw [memRead4_eq_field (pre := pre ++ beBytes32 pos) (v := force) hr (by simp [tailBytes]; rfl) (by simp [beBytes32])]
  rw [memRead2_eq_field (pre := pre ++ beBytes32 pos ++ beBytes32 force) (v := power) hr
    (by simp [tailBytes]; rfl) (by simp [beBytes32])]
  rw [memRead1_eq_field (pre := pre ++ beBytes32 pos ++ beBytes32 force ++ beBytes16 power) (v := temp) hr
    (by simp [tailBytes]; rfl) (by simp [beBytes32, beBytes16])]
  rw [memRead2_eq_field (pre := pre ++ beBytes32 pos ++ beBytes32 force ++ beBytes16 power ++ [temp]) (v := volt) hr
    (by simp [tailBytes]; rfl) (by simp [beBytes32, beBytes16])]
  rw [memRead2_eq_field (post := []) (v := errs)
    (pre := pre ++ beBytes32 pos ++ beBytes32 force ++ beBytes16 power ++ [temp] ++ beBytes16 volt) hr
    (by simp [tailBytes]) (by simp [beBytes32, beBytes16])]
  rfl

end Sys2Proof.Machine
end

