-- ==== Sys2Proof/Laws/Status.lean ====
section
/-! SUPPORT. The fields of the word that a command writes to STATUS, and the operation that an OP decodes to. -/

namespace Sys2Proof.Machine

theorem statusErr_statusWord (op : Byte) (err : BitVec 4) : statusErr (statusWord op err) = err := by
  revert op err
  decide

theorem statusOk_statusWord (op : Byte) (err : BitVec 4) : statusOk (statusWord op err) = decide (err = 0) := by
  revert op err
  decide

theorem statusLastOp_statusWord (op : Byte) (err : BitVec 4) : statusLastOp (statusWord op err) = op := by
  revert op err
  decide

theorem statusDone_statusWord (op : Byte) (err : BitVec 4) : statusDone (statusWord op err) = true := by
  revert op err
  decide

/-- An OP decodes to an operation exactly when it is that operation's OP. -/
theorem decodeOp_eq_ok_iff {op : Byte} {i : Instr} : decodeOp op = .ok i ↔ op = opcode i := by
  constructor
  · intro h
    unfold decodeOp at h
    split at h <;> first | (cases h; rfl) | cases h
  · rintro rfl
    cases i <;> rfl

end Sys2Proof.Machine
end

