-- ==== Sys2Proof/Laws/Word.lean ====
section
/-! SUPPORT. The numbers behind vectors put together and taken apart, and the width operand as a number. -/

namespace Sys2Proof.Machine

@[simp] theorem uint_eq_toNat {w : Nat} (v : BitVec w) : uint v = v.toNat := rfl
@[simp] theorem sint_eq_toInt {w : Nat} (v : BitVec w) : sint v = v.toInt := rfl

/-- `{hi, lo}` as a number, for two 16-bit halves (00_scope.md R7). -/
theorem toNat_halves_append (hi lo : Half) : (hi ++ lo : BitVec 32).toNat = hi.toNat * 65536 + lo.toNat := by
  rw [BitVec.toNat_append, Nat.shiftLeft_eq, Nat.mul_comm, ← Nat.two_pow_add_eq_or_of_lt (by simpa using lo.isLt)]

/-- `{a, b}` as a number, for two bytes. -/
theorem toNat_bytes_append (a b : Byte) : (a ++ b : BitVec 16).toNat = a.toNat * 256 + b.toNat := by
  rw [BitVec.toNat_append, Nat.shiftLeft_eq, Nat.mul_comm, ← Nat.two_pow_add_eq_or_of_lt (by simpa using b.isLt)]

theorem extract_low_halves_append (hi lo : Half) : (hi ++ lo : BitVec 32).extractLsb' 0 16 = lo := by
  apply BitVec.eq_of_toNat_eq
  simp only [BitVec.extractLsb'_toNat, toNat_halves_append]
  have := lo.isLt
  simp
  omega

theorem extract_high_halves_append (hi lo : Half) : (hi ++ lo : BitVec 32).extractLsb' 16 16 = hi := by
  apply BitVec.eq_of_toNat_eq
  simp only [BitVec.extractLsb'_toNat, toNat_halves_append]
  have := lo.isLt
  have := hi.isLt
  rw [Nat.shiftRight_eq_div_pow]
  omega

/-- A word is its high half before its low half. -/
theorem halves_append_extract (v : Word) : (v.extractLsb' 16 16 ++ v.extractLsb' 0 16 : BitVec 32) = v := by
  apply BitVec.eq_of_toNat_eq
  rw [toNat_halves_append]
  have := v.isLt
  simp [Nat.shiftRight_eq_div_pow]
  omega

/-- The width operand is `k` exactly when ARG1[7:0] is. -/
theorem opWidth_eq_iff (inp : Inputs) (k : Nat) (hk : k < 256) :
    opWidth inp = BitVec.ofNat 8 k ↔ inp.args[1].toNat % 256 = k := by
  unfold opWidth
  constructor
  · intro h
    have := congrArg BitVec.toNat h
    simp at this
    omega
  · intro h
    apply BitVec.eq_of_toNat_eq
    simp
    omega

end Sys2Proof.Machine
end

