-- ==== Sys2Proof/Machine/AsmText.lean ====
section
/-! DEFINITION. Reading a line of assembly text (30_encoding.md R93, R94). The text is a list of characters. What R93
leaves to the reader (where spaces may stand, the case of letters, leading zeros, how an index is written, the names
`READ` takes) is log 6. -/

namespace Sys2Proof.Machine

/-- The text without the spaces at its two ends. -/
def trimSpaces (t : List Char) : List Char :=
  ((t.dropWhile (· = ' ')).reverse.dropWhile (· = ' ')).reverse

/-- The pieces of a text between the occurrences of `c`. -/
def splitAtChar (c : Char) : List Char → List (List Char)
  | [] => [[]]
  | x :: xs =>
    if x = c then [] :: splitAtChar c xs
    else match splitAtChar c xs with
      | [] => [[x]]
      | w :: ws => (x :: w) :: ws

/-- The value of a hexadecimal digit. -/
def hexDigit (c : Char) : Option Nat :=
  let n := c.toNat
  if 48 ≤ n ∧ n ≤ 57 then some (n - 48)
  else if 65 ≤ n ∧ n ≤ 70 then some (n - 55)
  else if 97 ≤ n ∧ n ≤ 102 then some (n - 87)
  else none

/-- The value of a digit of base 10 or 16. -/
def digitIn (base : Nat) (c : Char) : Option Nat :=
  match hexDigit c with
  | some d => if d < base then some d else none
  | none => none

/-- The digits of a number, most significant first, onto the value read so far. -/
def readDigits (base acc : Nat) : List Char → Option Nat
  | [] => some acc
  | c :: rest => match digitIn base c with
    | some d => readDigits base (acc * base + d) rest
    | none => none

/-- R93: decimal, or `0x` hexadecimal. That leading zeros are taken is a DESIGN CHOICE (log 6). -/
def readNatural : List Char → Option Nat
  | [] => none
  | '0' :: 'x' :: ds => if ds.isEmpty then none else readDigits 16 0 ds
  | ds => readDigits 10 0 ds

/-- R93: "Values are decimal (a leading `-` is allowed) or `0x` hexadecimal". -/
def readValue : List Char → Option Int
  | '-' :: ds => if ds.isEmpty then none else (readDigits 10 0 ds).map fun n => -(n : Int)
  | t => (readNatural t).map fun n => (n : Int)

/-- A byte of a byte string: two hexadecimal digits (00_scope.md R7). -/
def readHexByte : List Char → Option Nat
  | [a, b] => readDigits 16 0 [a, b]
  | _ => none

/-- Every element read, or none. -/
def readAll {α : Type} (f : List Char → Option α) : List (List Char) → Option (List α)
  | [] => some []
  | w :: ws => match f w, readAll f ws with
    | some x, some xs => some (x :: xs)
    | _, _ => none

/-- `[b0 b1 ... bn-1]`: space-separated hexadecimal bytes in brackets (R93). -/
def readRxBytes : List Char → Option (List Nat)
  | '[' :: t => match t.reverse with
    | ']' :: u => readAll readHexByte ((splitAtChar ' ' u.reverse).filter fun w => !w.isEmpty)
    | _ => none
  | _ => none

/-- The keys of R93 that write an ARG register. -/
def keyNames : List (String × Key) :=
  [("value", .value), ("low", .low), ("high", .high), ("enable", .enable), ("baud", .baud), ("delay", .delay),
   ("sub", .sub), ("data", .data), ("addr", .addr), ("width", .width)]

/-- The entry of a table of names that a text is. -/
def lookupName {α : Type} (t : List Char) : List (String × α) → Option α
  | [] => none
  | (n, x) :: rest => if t = n.toList then some x else lookupName t rest

/-- The operands of a command line read so far. -/
structure OperandText where
  args : List (Key × Int)
  rx : Option (List Nat)
  deriving DecidableEq, Repr

/-- One `key=value` operand before those after it; `rx=` may be given once. -/
def readOperand (t : List Char) (after : OperandText) : Option OperandText :=
  match splitAtChar '=' t with
  | [k, v] =>
    if trimSpaces k = "rx".toList then
      match after.rx, readRxBytes (trimSpaces v) with
      | none, some bs => some { after with rx := some bs }
      | _, _ => none
    else match lookupName (trimSpaces k) keyNames, readValue (trimSpaces v) with
      | some key, some x => some { after with args := (key, x) :: after.args }
      | _, _ => none
  | _ => none

/-- Operands separated by commas (R93), in the order written. -/
def readOperandList : List (List Char) → Option OperandText
  | [] => some ⟨[], none⟩
  | t :: rest => (readOperandList rest).bind (readOperand t)

/-- What follows a mnemonic; nothing where every operand is left out. -/
def readOperands (t : List Char) : Option OperandText :=
  if (trimSpaces t).isEmpty then some ⟨[], none⟩ else readOperandList (splitAtChar ',' t)

/-- The value given for a key. -/
def valueOf (k : Key) (args : List (Key × Int)) : Option Int :=
  (args.find? fun a => a.1 = k).map fun a => a.2

/-- The operands have no key but these, none twice, and `rx=` only where it is allowed. -/
def onlyKeys (ks : List Key) (rxAllowed : Bool) (o : OperandText) : Bool :=
  o.args.all (fun a => ks.contains a.1) && decide (o.args.map fun a => a.1).Nodup && (rxAllowed || o.rx.isNone)

/-- The pseudo-commands of R94, by name. -/
def readPseudo (name : List Char) (o : OperandText) : Option Pseudo :=
  let v := fun k => valueOf k o.args
  if name = "ENC.HSS.ON".toList then
    if onlyKeys [.baud, .delay] false o then some (.encHssOn (v .baud) (v .delay)) else none
  else if name = "ENC.HSS.OFF".toList then
    if onlyKeys [.baud, .delay] false o then some (.encHssOff (v .baud) (v .delay)) else none
  else if name = "ENC.MRS.16".toList then
    if onlyKeys [.addr] false o then some (.encMrs16 (v .addr)) else none
  else if name = "ENC.MRS.32".toList then
    if onlyKeys [.addr] false o then some (.encMrs32 (v .addr)) else none
  else if name = "DEC.MRS.16".toList then
    if onlyKeys [] true o then some (.decMrs16 o.rx) else none
  else if name = "DEC.MRS.32".toList then
    if onlyKeys [] true o then some (.decMrs32 o.rx) else none
  else if name = "ENC.MWS.16".toList then
    if onlyKeys [.addr, .data] false o then some (.encMws16 (v .addr) (v .data)) else none
  else if name = "ENC.MWS.32".toList then
    if onlyKeys [.addr, .data] false o then some (.encMws32 (v .addr) (v .data)) else none
  else none

/-- The whole registers that `READ` and the host-only lines name, as the spec spells them (R20). -/
def regNames : List (String × HostReg) :=
  [("ARG0", .arg 0), ("ARG1", .arg 1), ("ARG2", .arg 2), ("RX_LEN", .rxLen), ("STATUS", .status),
   ("TX_FC", .result .txFc), ("TX_LEN", .result .txLen),
   ("R_LOW", .result .rLow), ("R_HIGH", .result .rHigh), ("R_VALUE", .result .rValue),
   ("R_STATE", .result .rState), ("R_BAUD", .result .rBaud), ("R_DELAY", .result .rDelay),
   ("R_REGVAL", .result .rRegval), ("R_MODE", .result .rMode), ("R_POS", .result .rPos),
   ("R_FORCE", .result .rForce), ("R_POWER", .result .rPower), ("R_TEMP", .result .rTemp),
   ("R_VOLT", .result .rVolt), ("R_ERRS", .result .rErrs)]

/-- The index in `NAME[i]`. DESIGN CHOICE (log 6): R93 speaks of values only; the index is written as a value without
a sign, in decimal or `0x` hexadecimal, leading zeros taken and no spaces within the brackets (`RX[0x0E]`). -/
def readIndex (name : String) (t : List Char) : Option Nat :=
  let n := name.toList ++ ['[']
  if n.isPrefixOf t then
    match (t.drop n.length).reverse with
    | ']' :: u => readNatural u.reverse
    | _ => none
  else none

/-- A register or cell by its name: a register letter for letter, a cell with an index of `readIndex`. DESIGN CHOICE
(log 6). -/
def readRegName (t : List Char) : Option HostReg :=
  match lookupName t regNames with
  | some r => some r
  | none => match readIndex "RX" t with
    | some i => if h : i < 256 then some (.rx ⟨i, h⟩) else none
    | none => match readIndex "TX" t with
      | some i => if h : i < 8 then some (.result (.tx ⟨i, h⟩)) else none
      | none => none

/-- The host-only lines `ARGi = v`, `RX[i] = b`, `RXLEN = n` (R93). DESIGN CHOICE (log 6): the i of `ARGi` is written
as the index of `readIndex` is, so `ARG0x2 = v` and `ARG02 = v` are lines for ARG2. -/
def readAssignment (t : List Char) : Option Line :=
  match splitAtChar '=' t with
  | [l, r] => match readValue (trimSpaces r) with
    | none => none
    | some x =>
      let name := trimSpaces l
      if name = "RXLEN".toList then some (.setRxLen x)
      else match readIndex "RX" name with
        | some i => some (.setRx i x)
        | none => match name with
          | 'A' :: 'R' :: 'G' :: ds => (readNatural ds).map fun i => .setArg i x
          | _ => none
  | _ => none

/-- A line that begins with a mnemonic of R71 or R94. -/
def readCommand (name rest : List Char) : Option Line :=
  match readOperands rest with
  | none => none
  | some o => match allInstrs.find? fun i => (mnemonic i).toList = name with
    | some i => some (.command ⟨i, o.args, o.rx⟩)
    | none => (readPseudo name o).map .pseudo

/-- One line of R93; none where the text is no line of it. -/
def readLine (text : List Char) : Option Line :=
  match trimSpaces text with
  | [] => none
  | ';' :: _ => some .comment
  | t =>
    let name := t.takeWhile (· ≠ ' ')
    let rest := trimSpaces (t.dropWhile (· ≠ ' '))
    if name = "ISSUE".toList then (readValue rest).map .issueOp
    else if name = "READ".toList then (readRegName rest).map .readReg
    else match readCommand name rest with
      | some l => some l
      | none => readAssignment t

/-- The host operations of a program text, line by line; none where a line does not read or is ill formed. -/
def assembleText (lines : List (List Char)) : Option (List HostOp) :=
  (readAll readLine lines).bind assemble

end Sys2Proof.Machine
end

