-- ==== Sys2Proof/Tests/Slice0.lean ====
section
/-! SUPPORT. Tests on one step each, with expected values taken from the spec (95_test_vectors.md; the id stands before
each), the smoke tests of the well-formedness checks, and a witness for the hypotheses of each statement that has some. -/

namespace Sys2Proof.Tests

open Sys2Proof.Machine

/-! ### Helpers -/

/-- The reset state with the three ARG registers written. -/
def withArgs (a0 a1 a2 : Word) : State :=
  hostWriteArg 2 a2 (hostWriteArg 1 a1 (hostWriteArg 0 a0 State.reset))

/-- RX holding these bytes from cell 0, and RX_LEN. -/
def withRx (bs : List Byte) (len : Byte) (s : State) : State :=
  { s with inp := { s.inp with rx := bs.mapIdx fun k b => (k, b), rxLen := len } }

/-- The state with this OP as the next thing pending. -/
def issuing (op : Byte) (s : State) : State := { s with pending := [.host (.issue op)] }

/-- STATUS and the results after one step, where it answers a next state. -/
def report (o : Host.Outcome State Fault Refusal) : Option (Word × Results) :=
  match o with
  | .next s => some (s.status, s.res)
  | .fault _ | .refused _ => none

/-- The stop after one step, where it is a fault. -/
def stop (o : Host.Outcome State Fault Refusal) : Option Fault :=
  match o with
  | .fault f => some f
  | .next _ | .refused _ => none

/-- The telemetry tail T of 95_test_vectors.md 2.3. -/
def tailT : List Byte :=
  [0x00, 0x01, 0x86, 0xA0, 0xFF, 0xFF, 0xF6, 0x3C, 0xFF, 0xFB, 0x23, 0x5D, 0xC0, 0x00, 0x00]

/-- The results of that tail (vector MC5). -/
def resultsT : Results :=
  { Results.cleared with
    rPos := 0x000186A0, rForce := 0xFFFFF63C, rPower := 0xFFFB, rTemp := 0x23, rVolt := 0x5DC0, rErrs := 0 }

/-- RS1 and RS2 of 95_test_vectors.md 2.4. -/
def rs1 : List Byte :=
  [0x12, 0x34, 0x03, 0x00, 0x01, 0x86, 0xA0, 0xFF, 0xFF, 0xF6, 0x3C, 0xFF, 0xFB, 0x23, 0x5D, 0xC0, 0x00, 0x01]

def rs2 : List Byte :=
  [0xDE, 0xAD, 0xBE, 0xEF, 0x03, 0x00, 0x01, 0x86, 0xA0, 0xFF, 0xFF, 0xF6, 0x3C, 0xFF, 0xFB, 0x23, 0x5D, 0xC0,
   0x00, 0x01]

/-- The 10-byte payload of vector HS10. -/
def hssU32 : List Byte := [0x00, 0x00, 0x00, 0x01, 0x00, 0x09, 0x89, 0x68, 0x00, 0x50]

/-! ### Decoding: each OP of 30_encoding.md R71 written out, family in bits 7:4 and index in bits 3:0 -/

theorem test_decode_pack_split : decode [0b00000001#8] = .ok (.packSplit, []) := by decide
theorem test_decode_unpack_s32 : decode [0b00000010#8] = .ok (.unpackS32, []) := by decide
theorem test_decode_unpack_u32 : decode [0b00000011#8] = .ok (.unpackU32, []) := by decide
theorem test_decode_enc_hss : decode [0b00010000#8] = .ok (.encHss, []) := by decide
theorem test_decode_dec_hss_u8 : decode [0b00010001#8] = .ok (.decHssU8, []) := by decide
theorem test_decode_dec_hss_u32 : decode [0b00010010#8] = .ok (.decHssU32, []) := by decide
theorem test_decode_enc_mcs : decode [0b00100000#8] = .ok (.encMcs, []) := by decide
theorem test_decode_dec_mcs : decode [0b00100001#8] = .ok (.decMcs, []) := by decide
theorem test_decode_enc_mrs : decode [0b00110000#8] = .ok (.encMrs, []) := by decide
theorem test_decode_dec_mrs : decode [0b00110001#8] = .ok (.decMrs, []) := by decide
theorem test_decode_enc_mws : decode [0b01000000#8] = .ok (.encMws, []) := by decide
theorem test_decode_dec_mws : decode [0b01000001#8] = .ok (.decMws, []) := by decide

/-- Rejections by name: no byte, the reserved 0x13 (R76), and the bytes next to the table's rows (R75). -/
theorem test_decode_rejects :
    decode [] = .error .noByte ∧ decode [0x13#8] = .error .reservedTwoField ∧
    decode [0x00#8] = .error (.illegalOp 0x00) ∧ decode [0x04#8] = .error (.illegalOp 0x04) ∧
    decode [0x0F#8] = .error (.illegalOp 0x0F) ∧ decode [0x22#8] = .error (.illegalOp 0x22) ∧
    decode [0x32#8] = .error (.illegalOp 0x32) ∧ decode [0x42#8] = .error (.illegalOp 0x42) ∧
    decode [0xFF#8] = .error (.illegalOp 0xFF) := by decide

/-- R94: a disassembler prints the mnemonic. -/
theorem test_disassemble : disassemble 0x12#8 = .ok "DEC.HSS.U32" := by decide

/-! ### Well-formedness: an ill-formed term for each check -/

theorem test_wf_key_of_another_mnemonic : Line.wellFormed (.command ⟨.packSplit, [(.low, 1)], none⟩) = false := by decide
theorem test_wf_rx_on_an_encoder : Line.wellFormed (.command ⟨.encMcs, [], some [1]⟩) = false := by decide
theorem test_wf_rx_byte_too_large : Line.wellFormed (.command ⟨.decMcs, [], some [256]⟩) = false := by decide
theorem test_wf_rx_too_long : rxWellFormed (List.replicate 256 0) = false := by
  rw [rxWellFormed, List.length_replicate]
  rfl
theorem test_wf_packer_integer : Line.wellFormed (.command ⟨.packSplit, [(.value, 4294967296)], none⟩) = false := by decide
theorem test_wf_packer_negative : Line.wellFormed (.command ⟨.unpackS32, [(.low, -2147483649)], none⟩) = false := by decide
theorem test_wf_pseudo_byte : Line.wellFormed (.pseudo (.decMrs16 (some [256]))) = false := by decide
theorem test_wf_arg_index : Line.wellFormed (.setArg 3 0) = false := by decide
theorem test_wf_rx_index : Line.wellFormed (.setRx 256 0) = false := by decide
theorem test_wf_rx_value : Line.wellFormed (.setRx 0 256) = false := by decide
theorem test_wf_rx_len : Line.wellFormed (.setRxLen (-1)) = false := by decide
theorem test_wf_issue : Line.wellFormed (.issueOp 256) = false := by decide
/-- and a line that all checks pass: a value wider than its field is legal (R93) -/
theorem test_wf_accepts : Line.wellFormed (.command ⟨.encMcs, [(.sub, 0x1FF), (.data, -1)], none⟩) = true := by decide

/-! ### Commands, one step each -/

/-- PK2: the high word is shifted, not copied (R104). -/
theorem test_pack_split : report (step (issuing 0x01 (withArgs 0x00010002 0 0))) =
    some (0x0103, { Results.cleared with rLow := 0x0002, rHigh := 0x0001 }) := by decide

/-- PK8: -123456. -/
theorem test_pack_split_negative : report (step (issuing 0x01 (withArgs 0xFFFE1DC0 0 0))) =
    some (0x0103, { Results.cleared with rLow := 0x1DC0, rHigh := 0xFFFE }) := by decide

/-- PK14: ARG0[31:16] ignored. -/
theorem test_unpack_s32 : report (step (issuing 0x02 (withArgs 0xABCD1234 0x00005678 0))) =
    some (0x0203, { Results.cleared with rValue := 0x56781234 }) := by decide

/-- PK12. -/
theorem test_unpack_u32 : report (step (issuing 0x03 (withArgs 0x0000 0x8000 0))) =
    some (0x0303, { Results.cleared with rValue := 0x80000000 }) := by decide

/-- HS1. -/
theorem test_enc_hss : report (step (issuing 0x10 (withArgs 1 625000 80))) =
    some (0x1003, { Results.cleared with
      txFc := 65, txLen := 8, tx := #v[0xFF, 0x00, 0x00, 0x09, 0x89, 0x68, 0x00, 0x50] }) := by decide

/-- HS3: enable is bit 0 alone. -/
theorem test_enc_hss_bit0 : report (step (issuing 0x10 (withArgs 2 0xFFFFFFFF 0xFFFF))) =
    some (0x1003, { Results.cleared with
      txFc := 65, txLen := 8, tx := #v[0x00, 0x00, 0xFF, 0xFF, 0xFF, 0xFF, 0xFF, 0xFF] }) := by decide

/-- HS9: trailing byte ignored. -/
theorem test_dec_hss_u8 :
    report (step (issuing 0x11 (withRx [0x01, 0x00, 0x09, 0x89, 0x68, 0x00, 0x50, 0xAA] 8 State.reset))) =
    some (0x1103, { Results.cleared with rState := 1, rBaud := 625000, rDelay := 80 }) := by decide

/-- HS6. -/
theorem test_dec_hss_u8_short :
    report (step (issuing 0x11 (withRx [0x01, 0x00, 0x09, 0x89, 0x68, 0x00, 0x50] 6 State.reset))) =
    some (0x1111, Results.cleared) := by decide

/-- HS10. -/
theorem test_dec_hss_u32 : report (step (issuing 0x12 (withRx hssU32 10 State.reset))) =
    some (0x1203, { Results.cleared with rState := 1, rBaud := 625000, rDelay := 80 }) := by decide

/-- HS12. -/
theorem test_dec_hss_u32_short : report (step (issuing 0x12 (withRx hssU32 9 State.reset))) =
    some (0x1211, Results.cleared) := by decide

/-- MC3: ARG0[31:8] ignored. -/
theorem test_enc_mcs : report (step (issuing 0x20 (withArgs 0x1FF 0x80000000 0))) =
    some (0x2003, { Results.cleared with
      txFc := 100, txLen := 5, tx := #v[0xFF, 0x80, 0, 0, 0, 0, 0, 0] }) := by decide

/-- MC5. -/
theorem test_dec_mcs : report (step (issuing 0x21 (withRx tailT 15 State.reset))) = some (0x2103, resultsT) := by decide

/-- MC6. -/
theorem test_dec_mcs_short : report (step (issuing 0x21 (withRx tailT 14 State.reset))) =
    some (0x2111, Results.cleared) := by decide

/-- MR5: ARG1[31:8] ignored. -/
theorem test_enc_mrs : report (step (issuing 0x30 (withArgs 0x0100 0x00000102 0))) =
    some (0x3003, { Results.cleared with txFc := 104, txLen := 3, tx := #v[0x01, 0x00, 0x02, 0, 0, 0, 0, 0] }) := by
  decide

/-- MR6. -/
theorem test_enc_mrs_width : report (step (issuing 0x30 (withArgs 0x0100 0x00000100 0))) =
    some (0x3031, Results.cleared) := by decide

/-- MR7. -/
theorem test_dec_mrs_width2 : report (step (issuing 0x31 (withRx rs2 20 (withArgs 0 2 0)))) =
    some (0x3103, { resultsT with rRegval := 0xDEADBEEF, rMode := 3, rErrs := 1 }) := by decide

/-- MR8. -/
theorem test_dec_mrs_width1 : report (step (issuing 0x31 (withRx rs1 18 (withArgs 0 1 0)))) =
    some (0x3103, { resultsT with rRegval := 0x00001234, rMode := 3, rErrs := 1 }) := by decide

/-- MW3: data not masked for width 1. -/
theorem test_enc_mws : report (step (issuing 0x40 (withArgs 0x0003 1 0x12345678))) =
    some (0x4003, { Results.cleared with
      txFc := 105, txLen := 7, tx := #v[0x00, 0x03, 0x01, 0x12, 0x34, 0x56, 0x78, 0] }) := by decide

/-- MW4. -/
theorem test_enc_mws_width : report (step (issuing 0x40 (withArgs 0x0003 0 2))) = some (0x4031, Results.cleared) := by
  decide

/-- MW5. -/
theorem test_dec_mws : report (step (issuing 0x41 (withRx (0x02 :: tailT) 16 State.reset))) =
    some (0x4103, { resultsT with rMode := 2 }) := by decide

/-- MW8. -/
theorem test_dec_mws_short : report (step (issuing 0x41 (withRx tailT 15 State.reset))) =
    some (0x4111, Results.cleared) := by decide

/-- MR11: the width check comes first. -/
theorem test_width_before_length : report (step (issuing 0x31 (withArgs 0 0 0))) = some (0x3131, Results.cleared) := by
  decide

/-- IL2. -/
theorem test_reserved_op : report (step (issuing 0x13 State.reset)) = some (0x1321, Results.cleared) := by decide

/-- IL6: an illegal OP right after a request clears it. -/
theorem test_illegal_clears :
    report (step (issuing 0x00 { State.reset with res := { Results.cleared with txFc := 65, txLen := 8 } })) =
    some (0x0021, Results.cleared) := by decide

/-- UW2: RX[14] never written. -/
theorem test_unwritten_cell : stop (step (issuing 0x21 (withRx (tailT.take 14) 15 State.reset))) =
    some .unwrittenInput := by decide

/-- UW3: the length check comes before any cell is read. -/
theorem test_short_before_unwritten : report (step (issuing 0x21 State.reset)) = some (0x2111, Results.cleared) := by
  decide

/-- UW1 is where the model departs from R25 (log 1): PACK.SPLIT right after reset runs, and the mark says that its
operand was never written. -/
theorem test_unwritten_argument : report (step (issuing 0x01 State.reset)) = some (0x0103, Results.cleared) ∧
    ¬ argsWritten .packSplit State.reset := by
  unfold argsWritten
  decide

/-! ### The host's operations -/

/-- A later write to a cell replaces the earlier one, and the cells stay in rising order. -/
theorem test_rx_memory : Memory.write (Memory.write (Memory.write [] 3 0x11#8) 1 0x22#8) 3 0x33#8 =
    [(1, 0x22#8), (3, 0x33#8)] := by decide

/-- P2 line 2: READ R_LOW. -/
theorem test_host_read :
    (match step { State.reset with
        res := { Results.cleared with rLow := 0x1DC0 }, pending := [.host (.read (.result .rLow))] } with
    | .next s => s.hostReads
    | _ => []) = [.half 0x1DC0] := by decide

/-! ### Assembly (P1 to P5 of 95_test_vectors.md, the encoding column) -/

/-- P4 line 2: a pseudo-command. -/
theorem test_asm_pseudo : assembleText ["ENC.MWS.16 addr=0x0003, data=0x00000002".toList] =
    some [.writeArg 0 3, .writeArg 1 1, .writeArg 2 2, .issue 0x40] := by decide

/-- P5 line 1 and line 3: a negative operand, and a host-only line. -/
theorem test_asm_negative : assembleText ["ENC.MCS sub=0x1C, data=-1".toList, "RX[14] = 0x00".toList] =
    some [.writeArg 0 0x1C, .writeArg 1 0xFFFFFFFF, .issue 0x20, .writeRx 14 0] := by decide

/-- `rx=`, and P2 line 5: operands left out write nothing. -/
theorem test_asm_rx : assembleText ["DEC.HSS.U8 rx=[01 FF]".toList, "; a comment".toList, "UNPACK.U32".toList] =
    some [.writeRx 0 0x01, .writeRx 1 0xFF, .writeRxLen 2, .issue 0x11, .issue 0x03] := by decide

/-- The other host-only lines. -/
theorem test_asm_host_only :
    assembleText ["ARG2 = 7".toList, "RXLEN = 16".toList, "ISSUE 0x13".toList, "READ TX[7]".toList] =
    some [.writeArg 2 7, .writeRxLen 16, .issue 0x13, .read (.result (.tx 7))] := by decide

/-- R94, the other pseudo-commands. -/
theorem test_asm_pseudo_table :
    [lineOps (.pseudo (.encHssOn (some 5) (some 6))), lineOps (.pseudo (.encHssOff (some 5) (some 6))),
      lineOps (.pseudo (.encMrs16 (some 9))), lineOps (.pseudo (.encMrs32 (some 9))),
      lineOps (.pseudo (.decMrs16 none)), lineOps (.pseudo (.decMrs32 (some []))),
      lineOps (.pseudo (.encMws32 (some 9) (some 8)))] =
    [[.writeArg 0 1, .writeArg 1 5, .writeArg 2 6, .issue 0x10], [.writeArg 0 0, .writeArg 1 5, .writeArg 2 6, .issue 0x10],
      [.writeArg 0 9, .writeArg 1 1, .issue 0x30], [.writeArg 0 9, .writeArg 1 2, .issue 0x30],
      [.writeArg 1 1, .issue 0x31], [.writeArg 1 2, .writeRxLen 0, .issue 0x31],
      [.writeArg 0 9, .writeArg 1 2, .writeArg 2 8, .issue 0x40]] := by decide

/-! ### Witnesses for the hypotheses of the statements -/

theorem witness_StepRunsTheIssuedCommand :
    (issuing 0x21 State.reset).pending = .host (.issue 0x21) :: [] ∧ decode [0x21#8] = .ok (.decMcs, []) ∧
    Instr.decMcs.wellFormed = true := by decide

/-- The ranges of R75 at their ends: each end is an OP that decodes to nothing, next to one that does. -/
theorem witness_OpsOutsideTheTableAreIllegal :
    ∀ op ∈ [0x00#8, 0x04#8, 0x0F#8, 0x13#8, 0x1F#8, 0x22#8, 0x2F#8, 0x32#8, 0x3F#8, 0x42#8, 0xFF#8],
      (issuing op State.reset).pending = .host (.issue op) :: [] ∧
      (uint op = 0x00 ∨ (0x04 ≤ uint op ∧ uint op ≤ 0x0F) ∨ (0x13 ≤ uint op ∧ uint op ≤ 0x1F) ∨
        (0x22 ≤ uint op ∧ uint op ≤ 0x2F) ∨ (0x32 ≤ uint op ∧ uint op ≤ 0x3F) ∨ 0x42 ≤ uint op) := by decide

/-- argsWritten, for every operation and every value of the registers: PackSplitSplitsTheWord,
UnpackSignedCombinesThePair, UnpackUnsignedCombinesThePair, PairRoundTrips, HighSpeedRequestIsEncoded,
MotorCommandRequestIsEncoded. -/
theorem witness_argsWritten (i : Instr) (a0 a1 a2 : Word) : argsWritten i (withArgs a0 a1 a2) := by
  intro k hk
  have h : (withArgs a0 a1 a2).argWritten = #v[true, true, true] := rfl
  rw [h]
  clear hk
  revert k
  decide

/-- MotorReadRequestIsEncoded and MotorWriteRequestIsEncoded: widths 1, 2, and 0, 3, 255 and 0x100 beside them. -/
theorem witness_RequestWidths :
    (∀ w ∈ [1#32, 2#32], argsWritten .encMrs (withArgs 0x0100 w 0) ∧ argsWritten .encMws (withArgs 0x0100 w 0) ∧
      (uint (withArgs 0x0100 w 0).inp.args[1] % 256 = 1 ∨ uint (withArgs 0x0100 w 0).inp.args[1] % 256 = 2)) ∧
    (∀ w ∈ [0#32, 3#32, 255#32, 0x100#32], argsWritten .encMrs (withArgs 0x0100 w 0) ∧
      argsWritten .encMws (withArgs 0x0100 w 0) ∧
      ¬ (uint (withArgs 0x0100 w 0).inp.args[1] % 256 = 1 ∨ uint (withArgs 0x0100 w 0).inp.args[1] % 256 = 2)) :=
  ⟨fun w hw => ⟨witness_argsWritten _ _ _ _, witness_argsWritten _ _ _ _, by
      simp only [List.mem_cons, List.not_mem_nil, or_false] at hw
      rcases hw with rfl | rfl <;> decide⟩,
    fun w hw => ⟨witness_argsWritten _ _ _ _, witness_argsWritten _ _ _ _, by
      simp only [List.mem_cons, List.not_mem_nil, or_false] at hw
      rcases hw with rfl | rfl | rfl | rfl <;> decide⟩⟩

theorem witness_RequestsReadBackTheOperands :
    (∃ t, exec .encHss (withArgs 1 625000 80) = .next t) ∧ (∃ t, exec .encMcs (withArgs 1 2 0) = .next t) ∧
    (∃ t, exec .encMrs (withArgs 0x0100 2 0) = .next t ∧ statusOk t.status = true) ∧
    (∃ t, exec .encMws (withArgs 0x0003 1 2) = .next t ∧ statusOk t.status = true) :=
  ⟨⟨_, rfl⟩, ⟨_, rfl⟩, ⟨_, rfl, by decide⟩, ⟨_, rfl, by decide⟩⟩

theorem witness_BothHalvesServeEitherReading :
    argsWritten .encMws (withArgs 3 1 0x12341234) ∧ uint (withArgs 3 1 0x12341234).inp.args[1] % 256 = 1 ∧
    (withArgs 3 1 0x12341234).inp.args[2] = (0x1234#16 ++ 0x1234#16 : BitVec 32) := by
  unfold argsWritten
  decide

/-- HighSpeedByteResponseIsDecoded at the smallest RX_LEN of each clause. -/
theorem witness_HighSpeedByteResponseIsDecoded :
    7 ≤ uint (withRx [0x01, 0x00, 0x09, 0x89, 0x68, 0x00, 0x50] 7 State.reset).inp.rxLen ∧
    rxHolds (withRx [0x01, 0x00, 0x09, 0x89, 0x68, 0x00, 0x50] 7 State.reset).inp
      ([0x01#8] ++ beBytes32 625000 ++ beBytes16 80) ∧
    uint (withRx [] 6 State.reset).inp.rxLen < 7 := by
  unfold rxHolds
  decide

theorem witness_HighSpeedWordResponseIsDecoded :
    10 ≤ uint (withRx hssU32 10 State.reset).inp.rxLen ∧
    rxHolds (withRx hssU32 10 State.reset).inp (beBytes32 1 ++ beBytes32 625000 ++ beBytes16 80) ∧
    uint (withRx [] 9 State.reset).inp.rxLen < 10 := by
  unfold rxHolds
  decide

theorem witness_MotorCommandResponseIsDecoded :
    15 ≤ uint (withRx tailT 15 State.reset).inp.rxLen ∧
    rxHolds (withRx tailT 15 State.reset).inp (tailBytes 0x000186A0 0xFFFFF63C 0xFFFB 0x23 0x5DC0 0) ∧
    uint (withRx [] 14 State.reset).inp.rxLen < 15 := by
  unfold rxHolds
  decide

theorem witness_MotorReadResponseIsDecoded_width1 :
    argsWritten .decMrs (withRx rs1 18 (withArgs 0 1 0)) ∧
    uint (withRx rs1 18 (withArgs 0 1 0)).inp.args[1] % 256 = 1 ∧ 18 ≤ uint (withRx rs1 18 (withArgs 0 1 0)).inp.rxLen ∧
    rxHolds (withRx rs1 18 (withArgs 0 1 0)).inp
      (beBytes16 0x1234 ++ [0x03#8] ++ tailBytes 0x000186A0 0xFFFFF63C 0xFFFB 0x23 0x5DC0 1) := by
  unfold rxHolds argsWritten
  decide

theorem witness_MotorReadResponseIsDecoded_width2 :
    argsWritten .decMrs (withRx rs2 20 (withArgs 0 2 0)) ∧
    uint (withRx rs2 20 (withArgs 0 2 0)).inp.args[1] % 256 = 2 ∧ 20 ≤ uint (withRx rs2 20 (withArgs 0 2 0)).inp.rxLen ∧
    rxHolds (withRx rs2 20 (withArgs 0 2 0)).inp
      (beBytes32 0xDEADBEEF ++ [0x03#8] ++ tailBytes 0x000186A0 0xFFFFF63C 0xFFFB 0x23 0x5DC0 1) := by
  unfold rxHolds argsWritten
  decide

/-- The error clauses of MotorReadResponseIsDecoded: widths 0 and 3 beside the good ones; RX_LEN 17 and 19. -/
theorem witness_MotorReadResponseIsDecoded_errors :
    (∀ w ∈ [0#32, 3#32], argsWritten .decMrs (withArgs 0 w 0) ∧ uint (withArgs 0 w 0).inp.args[1] % 256 ≠ 1 ∧
      uint (withArgs 0 w 0).inp.args[1] % 256 ≠ 2) ∧
    (argsWritten .decMrs (withRx rs1 17 (withArgs 0 1 0)) ∧
      uint (withRx rs1 17 (withArgs 0 1 0)).inp.args[1] % 256 = 1 ∧ uint (withRx rs1 17 (withArgs 0 1 0)).inp.rxLen < 18) ∧
    (argsWritten .decMrs (withRx rs2 19 (withArgs 0 2 0)) ∧
      uint (withRx rs2 19 (withArgs 0 2 0)).inp.args[1] % 256 = 2 ∧
      uint (withRx rs2 19 (withArgs 0 2 0)).inp.rxLen < 20) :=
  ⟨fun w hw => ⟨witness_argsWritten _ _ _ _, by
      simp only [List.mem_cons, List.not_mem_nil, or_false] at hw
      rcases hw with rfl | rfl <;> decide⟩,
    ⟨witness_argsWritten _ 0 1 0, by decide⟩, witness_argsWritten _ 0 2 0, by decide⟩

theorem witness_MotorWriteResponseIsDecoded :
    16 ≤ uint (withRx (0x02 :: tailT) 16 State.reset).inp.rxLen ∧
    rxHolds (withRx (0x02 :: tailT) 16 State.reset).inp
      ([0x02#8] ++ tailBytes 0x000186A0 0xFFFFF63C 0xFFFB 0x23 0x5DC0 0) ∧
    uint (withRx [] 15 State.reset).inp.rxLen < 16 := by
  unfold rxHolds
  decide

/-- ShortPayloadGivesNoPartialDecode one below the expected size. -/
theorem witness_ShortPayloadGivesNoPartialDecode :
    argsWritten .decMrs (withRx rs2 19 (withArgs 0 2 0)) ∧
    expectedSize .decMrs (opWidth (withRx rs2 19 (withArgs 0 2 0)).inp) = some 20 ∧
    uint (withRx rs2 19 (withArgs 0 2 0)).inp.rxLen < 20 := by
  unfold argsWritten
  decide

/-- TrailingBytesAreIgnored one above the expected size. -/
theorem witness_TrailingBytesAreIgnored :
    argsWritten .decMws (withRx (0x02 :: tailT ++ [0x99]) 17 State.reset) ∧
    expectedSize .decMws (opWidth (withRx (0x02 :: tailT ++ [0x99]) 17 State.reset).inp) = some 16 ∧
    16 ≤ uint (withRx (0x02 :: tailT ++ [0x99]) 17 State.reset).inp.rxLen := by
  unfold argsWritten
  decide

/-- LayoutNeverComesFromTheLength: two lengths that reach the size of width 2, the length 18 that only the size of width 1
fits, and ten bytes for DEC.HSS.U8. -/
theorem witness_LayoutNeverComesFromTheLength :
    (∀ n ∈ [18#8, 20#8, 255#8], argsWritten .decMrs (withRx rs2 n (withArgs 0 2 0)) ∧
      uint (withRx rs2 n (withArgs 0 2 0)).inp.args[1] % 256 = 2 ∧
      (withRx rs2 n (withArgs 0 2 0)).inp.rx = (withRx rs2 20 (withArgs 0 2 0)).inp.rx ∧
      uint (withRx rs2 n (withArgs 0 2 0)).inp.rxLen = uint n) ∧
    expectedSize .decMrs (opWidth (withRx rs2 20 (withArgs 0 2 0)).inp) = some 20 ∧
    (uint (withRx hssU32 10 State.reset).inp.rxLen = 10 ∧
      rxHolds (withRx hssU32 10 State.reset).inp
        ([0x00] ++ beBytes32 0x00000100 ++ beBytes16 0x0989 ++ [0x68, 0x00, 0x50])) := by
  unfold argsWritten rxHolds
  decide

theorem witness_WrongHighSpeedLayoutGoesUnnoticed :
    uint (withRx hssU32 10 State.reset).inp.rxLen = 10 ∧
    rxHolds (withRx hssU32 10 State.reset).inp
      [0x00#8, 0x00#8, 0x00#8, 0x01#8, 0x00#8, 0x09#8, 0x89#8, 0x68#8, 0x00#8, 0x50#8] := by
  unfold rxHolds
  decide

/-- An issued OP that answers a next state, in each of the four ways a command can end: ErrorIsChosenByPriority,
StatusAfterEveryCommand, RequestRegistersFollowTheCommand, CommandsAreFunctionsOfTheInputs,
IssueChangesOnlyStatusAndResults. -/
theorem witness_issue :
    (∃ t, issue 0x20 (withArgs 0x1C 0xFFFFFFFF 0) = .next t ∧ statusErr t.status = 0) ∧
    (∃ t, issue 0x21 State.reset = .next t ∧ statusErr t.status = 1) ∧
    (∃ t, issue 0x13 State.reset = .next t ∧ statusErr t.status = 2) ∧
    (∃ t, issue 0x40 (withArgs 3 3 2) = .next t ∧ statusErr t.status = 3) :=
  ⟨⟨_, rfl, by decide⟩, ⟨_, rfl, by decide⟩, ⟨_, rfl, by decide⟩, ⟨_, rfl, by decide⟩⟩

/-- UnnamedResultsReadZero: after a success, a register that the rule does not name; after a failure, any. -/
theorem witness_UnnamedResultsReadZero :
    (∃ t, issue 0x01 (withArgs 0x00010002 0 0) = .next t ∧ ¬ resultHolds t .rValue) ∧
    (∃ t, issue 0x21 State.reset = .next t ∧ ¬ resultHolds t .rPos) := by
  refine ⟨⟨_, rfl, ?_⟩, ⟨_, rfl, ?_⟩⟩
  · rintro ⟨_, i, hi, hr⟩
    have h : decodeOp 0x01#8 = .ok i := hi
    cases h
    revert hr
    decide
  · rintro ⟨h, _⟩
    exact absurd h (by decide)

theorem witness_BadWidthIsAnArgumentError :
    ∀ i ∈ [Instr.encMrs, .decMrs, .encMws], checksWidth i = true ∧ argsWritten i (withArgs 0 3 0) ∧
      uint (withArgs 0 3 0).inp.args[1] % 256 ≠ 1 ∧ uint (withArgs 0 3 0).inp.args[1] % 256 ≠ 2 := by
  unfold argsWritten
  decide

theorem witness_ExpectedSizeIsRecoverable :
    ∃ t, issue 0x31 (withRx rs2 18 (withArgs 0 2 0)) = .next t ∧ statusErr t.status = 1 := ⟨_, rfl, by decide⟩

theorem witness_BodiesWriteNamedRegistersOnce :
    ∃ out, bodyOf .encHss (withArgs 1 625000 80).inp = .ok out ∧ out.length = 10 := ⟨_, rfl, rfl⟩

theorem witness_MatchingDecoderIsOfTheSameFamily :
    ∃ t, exec .encMrs (withArgs 0x0100 2 0) = .next t ∧ statusOk t.status = true ∧ t.res.txFc ≠ 0 :=
  ⟨_, rfl, by decide, by decide⟩

/-- CommandsReadOnlyTheirOperands: states that differ in ARG0, in bits 31:8 of ARG1, in RX_LEN and above the payload. -/
theorem witness_CommandsReadOnlyTheirOperands :
    operandsAgree .decMrs (withRx rs2 20 (withArgs 0 2 0)).inp
      (withRx (rs2 ++ [0x99]) 21 (withArgs 5 0x00000702 9)).inp := by
  refine ⟨by decide, fun n h => ?_⟩
  have h' : n = 20 := (Option.some.inj h).symm
  subst h'
  decide

theorem witness_CommandsRunOnWrittenInputs : inputsWritten .decMws (withRx (0x02 :: tailT) 16 State.reset) := by
  refine ⟨by unfold argsWritten; decide, fun n h _ => ?_⟩
  have h' : n = 16 := (Option.some.inj h).symm
  subst h'
  unfold rxWritten
  decide

/-- DecodeStopsExactlyOnUnwrittenCells, with all cells written and with one missing. -/
theorem witness_DecodeStopsExactlyOnUnwrittenCells :
    expectedSize .decMcs (opWidth State.reset.inp) = some 15 ∧
    (15 ≤ uint (withRx tailT 15 State.reset).inp.rxLen ∧ rxWritten (withRx tailT 15 State.reset).inp 15) ∧
    (15 ≤ uint (withRx (tailT.take 14) 15 State.reset).inp.rxLen ∧
      ¬ rxWritten (withRx (tailT.take 14) 15 State.reset).inp 15) := by
  unfold rxWritten
  decide

theorem witness_HalvesOfAWordField :
    memRead4 (withRx [0x12, 0x34, 0x56, 0x78] 4 State.reset).inp 0 = .ok 0x12345678#32 := by decide

theorem witness_HostReadsWhatItWrote :
    (∃ s : State, s.pending = .host (.writeArg 2 7) :: .host (.read (.arg 2)) :: []) ∧
    (∃ s : State, s.pending = .host (.writeRx 255 7) :: .host (.read (.rx 255)) :: []) ∧
    (∃ s : State, s.pending = .host (.writeRxLen 255) :: .host (.read .rxLen) :: []) :=
  ⟨⟨{ State.reset with pending := _ }, rfl⟩, ⟨{ State.reset with pending := _ }, rfl⟩,
    ⟨{ State.reset with pending := _ }, rfl⟩⟩

/-- HostReadOnlyReads: a written RX cell, and an unwritten one. -/
theorem witness_HostReadOnlyReads :
    (Memory.read (withRx tailT 15 State.reset).inp.rx 14).isSome = true ∧
    Memory.read (withRx tailT 15 State.reset).inp.rx 15 = none := by decide

theorem witness_PlatformResetRestoresTheBlock :
    ({ withArgs 1 2 3 with pending := [.reset] } : State).pending = .reset :: [] := rfl

/-- EveryStepKeepsTheInvariant: a state that is not the reset state, meets the invariant and steps to a next one. -/
theorem witness_EveryStepKeepsTheInvariant :
    Inv (issuing 0x21 (withRx tailT 15 State.reset)) ∧
    ∃ t, step (issuing 0x21 (withRx tailT 15 State.reset)) = .next t :=
  ⟨⟨by decide, .inl rfl, by decide, fun _ _ => rfl, fun _ h => absurd h (by decide)⟩, _, rfl⟩

theorem witness_RunsEndAfterTheLastOperation :
    (issuing 0x20 (withArgs 1 2 0)).pending.length = 1 ∧
    ∃ t, Host.Core.run Sys2Proof.core 1 (issuing 0x20 (withArgs 1 2 0)) = .next t := ⟨rfl, _, rfl⟩

/-- RxOperandFillsTheBuffer at its bounds: no byte, and 255 bytes. -/
theorem witness_RxOperandFillsTheBuffer :
    rxWellFormed [] = true ∧ rxWellFormed (List.replicate 255 255) = true := by
  refine ⟨by decide, ?_⟩
  rw [rxWellFormed, List.length_replicate, List.all_replicate]
  rfl

/-- PackerTakesExactlyThe32BitIntegers at the bounds of each clause. -/
theorem witness_PackerTakesExactlyThe32BitIntegers :
    (∀ a ∈ [(Key.high, (4294967295 : Int)), (.low, -2147483648)],
      (Instr.unpackS32.keyArg a.1).isSome ∧ -2147483648 ≤ a.2 ∧ a.2 ≤ 4294967295) ∧
    (∀ x ∈ [(-2147483649 : Int), 4294967296],
      (Instr.packSplit.keyArg .value).isSome ∧ (x < -2147483648 ∨ 4294967295 < x)) := by decide

/-- The index of RX, TX and ARG as log 6 has it. -/
theorem test_asm_index :
    assembleText ["ARG0x2 = 1".toList, "RX[0x0E] = 2".toList, "READ TX[07]".toList] =
      some [.writeArg 2 1, .writeRx 14 2, .read (.result (.tx 7))] ∧
    assembleText ["READ ARG0x2".toList] = none ∧ assembleText ["RX[ 1 ] = 2".toList] = none ∧
    assembleText ["ENC.MCS sub=1,".toList] = none := by decide

end Sys2Proof.Tests
end

section
/-! SUPPORT. The word a command writes to STATUS as a number (10_state.md R27), the cleared result state (R31), and what
an issued OP, or an operation, can end in. -/

namespace Sys2Proof.Machine

/-! ### STATUS -/

/-- `{a, b}` as a number, at every width (00_scope.md R7). -/
theorem toNat_append_eq {m n : Nat} (a : BitVec m) (b : BitVec n) :
    (a ++ b).toNat = a.toNat * 2 ^ n + b.toNat := by
  rw [BitVec.toNat_append, Nat.shiftLeft_eq, Nat.mul_comm, ← Nat.two_pow_add_eq_or_of_lt b.isLt]

/-- R27: STATUS after a command, as the number its fields make. -/
theorem toNat_statusWord (op : Byte) (err : BitVec 4) :
    (statusWord op err).toNat = op.toNat * 256 + err.toNat * 16 + (if err = 0 then 1 else 0) * 2 + 1 := by
  have hok : (BitVec.ofBool (err == 0)).toNat = if err = 0 then 1 else 0 := by
    obtain rfl | h := eq_or_ne err 0
    · rfl
    · rw [beq_eq_false_iff_ne.2 h, if_neg h]
      rfl
  have hop := op.isLt
  have herr := err.isLt
  simp only [statusWord, BitVec.toNat_setWidth, toNat_append_eq, hok]
  split <;> simp <;> omega

theorem statusReservedLow_statusWord (op : Byte) (err : BitVec 4) : statusReservedLow (statusWord op err) = 0 := by
  apply BitVec.eq_of_toNat_eq
  rw [statusReservedLow, BitVec.extractLsb'_toNat, toNat_statusWord, Nat.shiftRight_eq_div_pow]
  split <;> simp <;> omega

theorem statusReservedHigh_statusWord (op : Byte) (err : BitVec 4) : statusReservedHigh (statusWord op err) = 0 := by
  have hop := op.isLt
  have herr := err.isLt
  apply BitVec.eq_of_toNat_eq
  rw [statusReservedHigh, BitVec.extractLsb'_toNat, toNat_statusWord, Nat.shiftRight_eq_div_pow]
  split <;> simp <;> omega

/-- 60_exceptions.md R200: the error codes are 1, 2 and 3. -/
theorem errorCode_range (e : CmdError) : errorCode e ≠ 0 ∧ (errorCode e).toNat ≤ 3 := by
  cases e <;> simp [errorCode]

theorem statusOk_complete (op : Byte) (out : List ResultWrite) (s : State) :
    statusOk (complete op out s).status = true := by
  rw [complete_status, statusOk_statusWord]
  rfl

theorem statusOk_raiseError (op : Byte) (e : CmdError) (s : State) :
    statusOk (raiseError op e s).status = false := by
  rw [raiseError_status, statusOk_statusWord, decide_eq_false (errorCode_range e).1]

/-! ### The cleared result state -/

theorem cleared_tx (k : Fin 8) : Results.cleared.tx[k] = 0 := by
  revert k
  decide

/-- R31: a cleared result register reads 0, at its own width. -/
theorem readResult_cleared (r : ResultReg) :
    readResult Results.cleared r = .byte 0 ∨ readResult Results.cleared r = .half 0 ∨
    readResult Results.cleared r = .word 0 := by
  cases r with
  | tx k => exact .inl (congrArg HostValue.byte (cleared_tx k))
  | txFc | txLen | rMode | rTemp => exact .inl rfl
  | rLow | rHigh | rDelay | rPower | rVolt | rErrs => exact .inr (.inl rfl)
  | rValue | rState | rBaud | rRegval | rPos | rForce => exact .inr (.inr rfl)

/-! ### What a command can end in -/

/-- If an issued OP answers a next state, its operation completed, or its operation or the decoder raised an error. -/
theorem issue_eq_next {op : Byte} {s t : State} (h : issue op s = .next t) :
    (∃ i out, decodeOp op = .ok i ∧ bodyOf i s.inp = .ok out ∧ t = complete op out s) ∨
    (∃ e, ((∃ i, decodeOp op = .ok i ∧ bodyOf i s.inp = .error (.raised e)) ∨
      ((∃ d, decodeOp op = .error d) ∧ e = .illegalOperation op)) ∧ t = raiseError op e s) := by
  rcases issue_cases op s with ⟨i, hi, hx⟩ | ⟨d, hd, hx⟩
  · rw [hx, exec_eq_commandFrame, ← decodeOp_eq_ok_iff.1 hi] at h
    rcases commandFrame_eq_next h with ⟨out, hb, ht⟩ | ⟨e, hb, ht⟩
    · exact .inl ⟨i, out, hi, hb, ht⟩
    · exact .inr ⟨e, .inl ⟨i, hi, hb⟩, ht⟩
  · exact .inr ⟨_, .inr ⟨⟨d, hd⟩, rfl⟩, Host.Outcome.next.inj (h.symm.trans hx)⟩

/-- Whatever a command ends in, STATUS is the word of its OP and of an error code of 60_exceptions.md R200. -/
theorem issue_status {op : Byte} {s t : State} (h : issue op s = .next t) :
    ∃ err : BitVec 4, err.toNat ≤ 3 ∧ t.status = statusWord op err := by
  rcases issue_eq_next h with ⟨i, out, _, _, rfl⟩ | ⟨e, _, rfl⟩
  · exact ⟨0, by decide, rfl⟩
  · exact ⟨errorCode e, (errorCode_range e).2, rfl⟩

/-- The frame of R74 faults exactly where the body faults. -/
theorem commandFrame_eq_fault_iff {op : Byte} {body : Body} {s : State} {f : Fault} :
    commandFrame op body s = .fault f ↔ body = .error (.fault f) := by
  rcases commandFrame_cases op body s with ⟨out, rfl, hf⟩ | ⟨e, rfl, hf⟩ | ⟨g, rfl, hf⟩
  · simp [hf]
  · simp [hf]
  · simp [hf]

/-- Two states are the same when they are the same but for the marks of written ARG registers, and so are the marks. -/
theorem state_eq_iff_up_to_marks (a b : State) (marks : Vector Bool 3) :
    a = b ↔ { a with argWritten := marks } = { b with argWritten := marks } ∧ b.argWritten = a.argWritten := by
  cases a
  cases b
  simp only [State.mk.injEq]
  tauto

/-- Log 1: the marks of written ARG registers go through the frame of R74 untouched and unread. -/
theorem commandFrame_argWritten_iff (op : Byte) (body : Body) (s t : State) (marks : Vector Bool 3) :
    commandFrame op body s = .next t ↔
    commandFrame op body { s with argWritten := marks } = .next { t with argWritten := marks } ∧
      t.argWritten = s.argWritten := by
  match body with
  | .ok out =>
    simp only [commandFrame, Host.Outcome.next.injEq]
    exact state_eq_iff_up_to_marks (complete op out s) t marks
  | .error (.raised e) =>
    simp only [commandFrame, Host.Outcome.next.injEq]
    exact state_eq_iff_up_to_marks (raiseError op e s) t marks
  | .error (.fault f) => simp [commandFrame]

end Sys2Proof.Machine
end

section
/-! SUPPORT. What the body of each operation writes (10_state.md R28, R29) and which RX cells it reads (R25), as one
table lemma over all operations each. -/

namespace Sys2Proof.Machine

/-! ### The registers a body writes -/

/-- Where the body ends with results, they are writes of exactly these registers, in this order. -/
def Writes (regs : List ResultReg) (b : Body) : Prop := ∀ out, b = .ok out → out.map ResultWrite.reg = regs

theorem writes_ok {regs : List ResultReg} {out : List ResultWrite} (h : out.map ResultWrite.reg = regs) :
    Writes regs (.ok out) := by
  rintro _ ⟨⟩
  exact h

/-- What a sequence of two parts answers, the second part answers after the first has answered. -/
theorem bind_eq_ok {α β : Type} {x : Except Halt α} {f : α → Except Halt β} {b : β} (h : (x >>= f) = .ok b) :
    ∃ a, x = .ok a ∧ f a = .ok b := by
  cases x with
  | ok a => exact ⟨a, rfl, h⟩
  | error e => cases h

/-- What comes before the writes of a body does not change which registers they name. -/
theorem writes_bind {α : Type} {regs : List ResultReg} {x : Except Halt α} {f : α → Body}
    (hf : ∀ v, Writes regs (f v)) : Writes regs (x >>= f) := by
  intro out h
  obtain ⟨v, _, hv⟩ := bind_eq_ok h
  exact hf v out hv

/-- A body that puts its own writes before those of another. -/
theorem writes_append {regs : List ResultReg} {x : Body} (hx : Writes regs x) (front : List ResultWrite) :
    Writes (front.map ResultWrite.reg ++ regs) (x >>= fun tail => .ok (front ++ tail)) := by
  intro out h
  obtain ⟨tail, ht, hout⟩ := bind_eq_ok h
  rw [← Except.ok.inj hout, List.map_append, hx tail ht]

/-- The registers of the telemetry tail (30_encoding.md R83). -/
theorem decodeTail_writes (inp : Inputs) (b : Nat) (h : b + 15 ≤ 256) :
    Writes [.rPos, .rForce, .rPower, .rTemp, .rVolt, .rErrs] (decodeTail inp b h) :=
  writes_bind fun _ => writes_bind fun _ => writes_bind fun _ => writes_bind fun _ => writes_bind fun _ =>
    writes_bind fun _ => writes_ok rfl

theorem bodyDecMrs_writes (inp : Inputs) : Writes (namedRegs .decMrs) (bodyDecMrs inp) := by
  unfold bodyDecMrs
  refine writes_bind fun _ => ?_
  split
  · exact writes_bind fun _ => writes_bind fun _ => writes_bind fun _ => writes_append (decodeTail_writes _ _ _) _
  · exact writes_bind fun _ => writes_bind fun _ => writes_bind fun _ => writes_append (decodeTail_writes _ _ _) _

/-- R29 with R28: every operation writes the registers that its rule names, each once and in the table's order. -/
theorem bodyOf_writes_namedRegs (i : Instr) (inp : Inputs) : Writes (namedRegs i) (bodyOf i inp) := by
  cases i with
  | packSplit | unpackS32 | unpackU32 | encHss | encMcs => exact writes_ok rfl
  | encMrs | encMws => exact writes_bind fun _ => writes_ok rfl
  | decHssU8 => exact writes_bind fun _ => writes_bind fun _ => writes_bind fun _ => writes_bind fun _ => writes_ok rfl
  | decHssU32 => exact writes_bind fun _ => writes_bind fun _ => writes_bind fun _ => writes_bind fun _ => writes_ok rfl
  | decMcs => exact writes_bind fun _ => decodeTail_writes _ _ _
  | decMrs => exact bodyDecMrs_writes inp
  | decMws => exact writes_bind fun _ => writes_bind fun _ => writes_append (decodeTail_writes _ _ _) _

/-- A result register that the rule of the operation does not name reads as a cleared one after it. -/
theorem readResult_of_not_named {i : Instr} {inp : Inputs} {out : List ResultWrite} (h : bodyOf i inp = .ok out)
    {r : ResultReg} (hr : r ∉ namedRegs i) :
    readResult (applyWrites Results.cleared out) r = readResult Results.cleared r := by
  refine readResult_applyWrites_other out _ r fun w hw e => hr ?_
  rw [← bodyOf_writes_namedRegs i inp out h, ← e]
  exact List.mem_map_of_mem hw

/-! ### The request registers TX_FC, TX_LEN and TX -/

/-- R28: the TX cells an operation names are those below its TX_LEN. -/
theorem tx_mem_namedRegs_iff (i : Instr) (k : Fin 8) : .tx k ∈ namedRegs i ↔ k.val < (requestLength i).toNat := by
  cases i <;> decide +revert

/-- An operation that builds a request names TX_FC and TX_LEN; one that builds none names neither, and its function
code and length in the table are 0. -/
theorem request_named_or_zero (i : Instr) :
    i ∈ [.encHss, .encMcs, .encMrs, .encMws] ∨
    (.txFc ∉ namedRegs i ∧ .txLen ∉ namedRegs i ∧ requestCode i = 0 ∧ requestLength i = 0) := by
  cases i <;> decide

/-- An encoder's last two writes are its function code and its length. -/
theorem bodyOf_encoder_ends {i : Instr} (hi : i ∈ [Instr.encHss, .encMcs, .encMrs, .encMws]) {inp : Inputs}
    {out : List ResultWrite} (h : bodyOf i inp = .ok out) :
    ∃ front : List ResultWrite, out = front ++ [.txFc (requestCode i), .txLen (requestLength i)] := by
  simp only [List.mem_cons, List.not_mem_nil, or_false] at hi
  rcases hi with rfl | rfl | rfl | rfl
  · exact ⟨_, (Except.ok.inj h).symm⟩
  · exact ⟨_, (Except.ok.inj h).symm⟩
  · obtain ⟨_, _, hout⟩ := bind_eq_ok h
    exact ⟨_, (Except.ok.inj hout).symm⟩
  · obtain ⟨_, _, hout⟩ := bind_eq_ok h
    exact ⟨_, (Except.ok.inj hout).symm⟩

/-- R28, R78: TX_FC and TX_LEN after the writes of a body. -/
theorem request_of_bodyOf {i : Instr} {inp : Inputs} {out : List ResultWrite} (h : bodyOf i inp = .ok out) :
    (applyWrites Results.cleared out).txFc = requestCode i ∧
    (applyWrites Results.cleared out).txLen = requestLength i := by
  rcases request_named_or_zero i with hi | ⟨hfc, hlen, hc, hl⟩
  · obtain ⟨front, rfl⟩ := bodyOf_encoder_ends hi h
    rw [applyWrites_append]
    exact ⟨rfl, rfl⟩
  · rw [hc, hl]
    exact ⟨HostValue.byte.inj (readResult_of_not_named h hfc), HostValue.byte.inj (readResult_of_not_named h hlen)⟩

/-- R28: a TX cell at or above TX_LEN is 0. -/
theorem tx_eq_zero_of_bodyOf {i : Instr} {inp : Inputs} {out : List ResultWrite} (h : bodyOf i inp = .ok out)
    {k : Fin 8} (hk : (requestLength i).toNat ≤ k.val) : (applyWrites Results.cleared out).tx[k] = 0 := by
  have hn : ResultReg.tx k ∉ namedRegs i := fun hm => absurd ((tx_mem_namedRegs_iff i k).1 hm) (Nat.not_lt.2 hk)
  exact (HostValue.byte.inj (readResult_of_not_named h hn)).trans (cleared_tx k)

/-! ### The RX cells a body reads -/

/-- A reader of the cells from 0 faults exactly where one of them has not been written. -/
theorem reads_eq_fault_iff {α : Type} {inp : Inputs} {n : Nat} {x : Except Halt α} (h : Reads inp 0 n x) :
    x = .error (.fault .unwrittenInput) ↔ ¬ rxWritten inp n := by
  rcases h with ⟨hw, v, rfl⟩ | ⟨⟨j, hj, hn⟩, rfl⟩
  · have written : rxWritten inp n := fun k hk => Nat.zero_add k ▸ hw k hk
    simp [written]
  · refine iff_of_true rfl fun written => ?_
    have hj_written := written j hj
    rw [Nat.zero_add] at hn
    simp [hn] at hj_written

theorem reads_checkLen {inp : Inputs} {n : Nat} (h : n ≤ uint inp.rxLen) (off : Nat) :
    Reads inp off 0 (checkLen inp n) :=
  .inl ⟨fun _ hj => absurd hj (Nat.not_lt_zero _), (), checkLen_eq_ok h⟩

theorem reads_checkWidth {w : Byte} (h : w = 1 ∨ w = 2) (inp : Inputs) (off : Nat) :
    Reads inp off 0 (checkWidth w) :=
  .inl ⟨fun _ hj => absurd hj (Nat.not_lt_zero _), (), checkWidth_eq_ok h⟩

/-- The layout of width 1 is 18 bytes (30_encoding.md R85). -/
theorem bodyDecMrs_reads_of_width_one {inp : Inputs} (hw : opWidth inp = 1) (h : 18 ≤ uint inp.rxLen) :
    Reads inp 0 18 (bodyDecMrs inp) := by
  unfold bodyDecMrs
  rw [if_neg (by rw [hw]; decide)]
  exact reads_bind (reads_checkWidth (.inl hw) inp 0) fun _ => reads_bind (reads_checkLen h 0) fun _ =>
    reads_bind (memRead2_reads inp 0 (by omega)) fun _ => reads_bind (memRead1_reads inp 2 (by omega)) fun _ =>
      reads_bind (decodeTail_reads inp 3 (by omega)) fun _ => reads_pure inp _ _

/-- The layout of width 2 is 20 bytes (30_encoding.md R85). -/
theorem bodyDecMrs_reads_of_width_two {inp : Inputs} (hw : opWidth inp = 2) (h : 20 ≤ uint inp.rxLen) :
    Reads inp 0 20 (bodyDecMrs inp) := by
  unfold bodyDecMrs
  rw [if_pos hw]
  exact reads_bind (reads_checkWidth (.inr hw) inp 0) fun _ => reads_bind (reads_checkLen h 0) fun _ =>
    reads_bind (memRead4_reads inp 0 (by omega)) fun _ => reads_bind (memRead1_reads inp 4 (by omega)) fun _ =>
      reads_bind (decodeTail_reads inp 5 (by omega)) fun _ => reads_pure inp _ _

/-- R85, R86: a decode whose checks pass reads exactly the RX cells below its expected size. -/
theorem bodyOf_reads {i : Instr} {inp : Inputs} {n : Nat} (hn : expectedSize i (opWidth inp) = some n)
    (h : n ≤ uint inp.rxLen) : Reads inp 0 n (bodyOf i inp) := by
  cases i with
  | decHssU8 =>
    obtain rfl := Option.some.inj hn
    exact reads_bind (reads_checkLen h 0) fun _ => reads_bind (memRead1_reads inp 0 (by omega)) fun _ =>
      reads_bind (memRead4_reads inp 1 (by omega)) fun _ => reads_bind (memRead2_reads inp 5 (by omega)) fun _ =>
        reads_pure inp _ _
  | decHssU32 =>
    obtain rfl := Option.some.inj hn
    exact reads_bind (reads_checkLen h 0) fun _ => reads_bind (memRead4_reads inp 0 (by omega)) fun _ =>
      reads_bind (memRead4_reads inp 4 (by omega)) fun _ => reads_bind (memRead2_reads inp 8 (by omega)) fun _ =>
        reads_pure inp _ _
  | decMcs =>
    obtain rfl := Option.some.inj hn
    exact reads_bind (reads_checkLen h 0) fun _ => decodeTail_reads inp 0 (by omega)
  | decMws =>
    obtain rfl := Option.some.inj hn
    exact reads_bind (reads_checkLen h 0) fun _ => reads_bind (memRead1_reads inp 0 (by omega)) fun _ =>
      reads_bind (decodeTail_reads inp 1 (by omega)) fun _ => reads_pure inp _ _
  | decMrs =>
    unfold expectedSize at hn
    split_ifs at hn with h1 h2
    · obtain rfl := Option.some.inj hn
      exact bodyDecMrs_reads_of_width_one h1 h
    · obtain rfl := Option.some.inj hn
      exact bodyDecMrs_reads_of_width_two h2 h
  | packSplit | unpackS32 | unpackU32 | encHss | encMcs | encMrs | encMws => cases hn

end Sys2Proof.Machine
end

section
/-! PROOFS. The state after a command and the inputs never written (10_state.md): O26, O27, O28, O36, O37. -/

namespace Sys2Proof.Machine

/-- R31, R32: after a command a result register that holds no result reads as a cleared one. -/
theorem issue_results_follow {op : Byte} {s t : State} (h : issue op s = .next t) {r : ResultReg}
    (hr : ¬ resultHolds t r) : readResult t.res r = readResult Results.cleared r := by
  rcases issue_eq_next h with ⟨i, out, hi, hb, rfl⟩ | ⟨e, _, rfl⟩
  · refine readResult_of_not_named hb fun hm => hr ⟨statusOk_complete op out s, i, ?_, hm⟩
    rw [complete_status, statusLastOp_statusWord, hi]
  · rfl

/-- Settles O26: STATUS is the word of the OP and an error code, and each of its fields is read off that word. -/
theorem statusAfterEveryCommand : Obligations.StatusAfterEveryCommand := by
  intro op s t h
  obtain ⟨err, herr, hst⟩ := issue_status h
  rw [hst]
  exact ⟨err, herr, toNat_statusWord op err, statusDone_statusWord op err, statusOk_statusWord op err,
    statusErr_statusWord op err, statusLastOp_statusWord op err, statusReservedLow_statusWord op err,
    statusReservedHigh_statusWord op err⟩

/-- Settles O27: such a register reads as a cleared one, and a cleared one reads 0. -/
theorem unnamedResultsReadZero : Obligations.UnnamedResultsReadZero := by
  intro op s t h r hr
  rw [issue_results_follow h hr]
  exact readResult_cleared r

/-- Settles O28, by how the command ended: a success leaves the writes of its body, a failure the cleared results. -/
theorem requestRegistersFollowTheCommand : Obligations.RequestRegistersFollowTheCommand := by
  intro op s t h
  rcases issue_eq_next h with ⟨i, out, hi, hb, rfl⟩ | ⟨e, _, rfl⟩
  · have request := request_of_bodyOf hb
    refine ⟨fun j hj _ => ?_, fun hok => ?_, fun k hk => tx_eq_zero_of_bodyOf hb ?_⟩
    · obtain rfl : i = j := Except.ok.inj (hi.symm.trans hj)
      exact request
    · rw [statusOk_complete] at hok
      cases hok
    · rwa [complete_res, request.2] at hk
  · refine ⟨fun _ _ hok => ?_, fun _ => ⟨rfl, rfl⟩, fun k _ => cleared_tx k⟩
    rw [statusOk_raiseError] at hok
    cases hok

/-- Settles O36: the body reads exactly the cells below the expected size, and the frame faults where the body does. -/
theorem decodeStopsExactlyOnUnwrittenCells : Obligations.DecodeStopsExactlyOnUnwrittenCells := by
  intro i s n hn hlen
  rw [exec_eq_commandFrame, commandFrame_eq_fault_iff, reads_eq_fault_iff (bodyOf_reads hn hlen)]

/-- Settles O37: the body sees the inputs alone, and the frame hands the marks through. -/
theorem unwrittenArgumentsRunAsTheyStand : Obligations.UnwrittenArgumentsRunAsTheyStand := by
  intro i s marks
  simp only [exec_eq_commandFrame]
  exact ⟨fun t => commandFrame_argWritten_iff _ _ s t marks,
    commandFrame_eq_fault_iff.trans commandFrame_eq_fault_iff.symm⟩

end Sys2Proof.Machine
end

section
/-! SUPPORT. A command as one body in the frame of R74 whatever its OP, what MemRead answers and MemWrite stores
(20_memory.md R52, R53), and what a host can name after each host operation (R59, R60). -/

namespace Sys2Proof.Machine

/-! ### An issued OP as one body in the frame -/

/-- The body that `HostIssue(op)` runs, where an OP outside the table has a body that raises IllegalOperation (R75). -/
def issuedBody (op : Byte) (inp : Inputs) : Body :=
  match decodeOp op with
  | .ok i => bodyOf i inp
  | .error _ => .error (.raised (.illegalOperation op))

/-- R74: every OP, in the table or not, is one body of the inputs alone in the frame. -/
theorem issue_eq_commandFrame (op : Byte) (s : State) :
    issue op s = commandFrame op (issuedBody op s.inp) s := by
  cases h : decodeOp op with
  | ok i =>
    simp only [issue, issuedBody, h, exec_eq_commandFrame]
    rw [decodeOp_eq_ok_iff.1 h]
  | error e => simp only [issue, issuedBody, h, illegalOperation]

/-- The report of a command comes from its body: the state around it does not enter. -/
theorem commandFrame_sameReport (op : Byte) (body : Body) (s t : State) :
    sameReport (commandFrame op body s) (commandFrame op body t) := by
  match body with
  | .ok _ => exact ⟨rfl, rfl⟩
  | .error (.raised _) => exact ⟨rfl, rfl⟩
  | .error (.fault _) => exact rfl

/-- The frame writes STATUS and the result state and nothing else. -/
theorem commandFrame_changes_only_report {op : Byte} {body : Body} {s t : State}
    (h : commandFrame op body s = .next t) : t = { s with status := t.status, res := t.res } := by
  rcases commandFrame_eq_next h with ⟨_, _, rfl⟩ | ⟨_, _, rfl⟩ <;> rfl

/-- The same body framed again finds its own report and writes it again: results are cleared first (R31). -/
theorem commandFrame_idempotent {op : Byte} {body : Body} {s t : State} (h : commandFrame op body s = .next t) :
    commandFrame op body t = .next t := by
  rcases commandFrame_eq_next h with ⟨_, rfl, rfl⟩ | ⟨_, rfl, rfl⟩ <;> rfl

/-! ### MemRead -/

theorem rxCell_bind_eq_ok_iff {α : Type} {inp : Inputs} {k : Fin 256} {f : Byte → Except Halt α} {v : α} :
    (rxCell inp k >>= f) = .ok v ↔ ∃ b, Memory.read inp.rx k.val = some b ∧ f b = .ok v := by
  rcases rxCell_cases inp k with ⟨b, hb, hx⟩ | ⟨hb, hx⟩
  · simp [hb, hx, ok_bind]
  · simp [hb, hx, error_bind]

theorem memRead1_eq_ok_iff {inp : Inputs} {off : Nat} {h : off + 1 ≤ 256} {v : Byte} :
    memRead1 inp off h = .ok v ↔ Memory.read inp.rx off = some v := by
  rw [memRead1]
  rcases rxCell_cases inp ⟨off, by omega⟩ with ⟨b, hb, hx⟩ | ⟨hb, hx⟩
  · simp [hb, hx]
  · simp [hb, hx]

theorem memRead2_eq_ok_iff {inp : Inputs} {off : Nat} {h : off + 2 ≤ 256} {v : Half} :
    memRead2 inp off h = .ok v ↔
      ∃ a b, Memory.read inp.rx off = some a ∧ Memory.read inp.rx (off + 1) = some b ∧ a ++ b = v := by
  simp only [memRead2, rxCell_bind_eq_ok_iff, pure, Except.pure, Except.ok.injEq, exists_and_left]

theorem memRead4_eq_ok_iff {inp : Inputs} {off : Nat} {h : off + 4 ≤ 256} {v : Word} :
    memRead4 inp off h = .ok v ↔
      ∃ a b c d, Memory.read inp.rx off = some a ∧ Memory.read inp.rx (off + 1) = some b ∧
        Memory.read inp.rx (off + 2) = some c ∧ Memory.read inp.rx (off + 3) = some d ∧ a ++ b ++ c ++ d = v := by
  simp only [memRead4, rxCell_bind_eq_ok_iff, pure, Except.pure, Except.ok.injEq, exists_and_left]

/-! ### Bytes put together, as a number and as halves -/

theorem two_bytes_append_eq_iff (a b : Byte) (v : Half) : a ++ b = v ↔ v.toNat = a.toNat * 256 + b.toNat := by
  rw [← BitVec.toNat_inj, toNat_append_eq]
  exact eq_comm

theorem four_bytes_append_eq_iff (a b c d : Byte) (v : Word) :
    a ++ b ++ c ++ d = v ↔ v.toNat = a.toNat * 16777216 + b.toNat * 65536 + c.toNat * 256 + d.toNat := by
  rw [← BitVec.toNat_inj]
  simp only [toNat_append_eq]
  omega

/-- R57: the first two of four bytes are the high half, the last two the low half. -/
theorem four_bytes_eq_halves_append (a b c d : Byte) :
    (a ++ b ++ c ++ d : BitVec 32) = ((a ++ b : BitVec 16) ++ (c ++ d : BitVec 16) : BitVec 32) := by
  rw [four_bytes_append_eq_iff]
  simp only [toNat_append_eq]
  omega

/-! ### MemWrite -/

theorem tx_applyWrite (r : Results) (i k : Fin 8) (b : Byte) :
    (applyWrite r (.tx i b)).tx[k] = if k.val = i.val then b else r.tx[k] := by
  simp [applyWrite, Vector.getElem_set, eq_comm]

theorem tx_memWrite1 (r : Results) (off : Nat) (v : Byte) (h : off + 1 ≤ 8) (k : Fin 8) :
    (applyWrites r (memWrite1 off v h)).tx[k] = if k.val = off then v else r.tx[k] :=
  tx_applyWrite r _ k v

/-- R53: of the bytes of the field, the cell at distance j from the offset gets the one with 1 - j bytes below it. -/
theorem tx_memWrite2 (r : Results) (off : Nat) (v : Half) (h : off + 2 ≤ 8) (k : Fin 8) :
    (applyWrites r (memWrite2 off v h)).tx[k] =
      if off ≤ k.val ∧ k.val < off + 2 then v.extractLsb' (8 * (1 - (k.val - off))) 8 else r.tx[k] := by
  simp only [memWrite2, applyWrites_cons, applyWrites_nil, tx_applyWrite]
  by_cases hin : off ≤ k.val ∧ k.val < off + 2
  · obtain ⟨j, hj, hk⟩ : ∃ j < 2, k.val = off + j := ⟨k.val - off, by omega, by omega⟩
    interval_cases j <;> simp [hk]
  · rw [if_neg hin, if_neg (by omega), if_neg (by omega)]

/-- R53: of the bytes of the field, the cell at distance j from the offset gets the one with 3 - j bytes below it. -/
theorem tx_memWrite4 (r : Results) (off : Nat) (v : Word) (h : off + 4 ≤ 8) (k : Fin 8) :
    (applyWrites r (memWrite4 off v h)).tx[k] =
      if off ≤ k.val ∧ k.val < off + 4 then v.extractLsb' (8 * (3 - (k.val - off))) 8 else r.tx[k] := by
  simp only [memWrite4, applyWrites_cons, applyWrites_nil, tx_applyWrite]
  by_cases hin : off ≤ k.val ∧ k.val < off + 4
  · obtain ⟨j, hj, hk⟩ : ∃ j < 4, k.val = off + j := ⟨k.val - off, by omega, by omega⟩
    interval_cases j <;> simp [hk]
  · rw [if_neg hin, if_neg (by omega), if_neg (by omega), if_neg (by omega), if_neg (by omega)]

theorem toNat_extract_byte {w : Nat} (v : BitVec w) (lsb : Nat) :
    (v.extractLsb' lsb 8).toNat = v.toNat / 2 ^ lsb % 256 := by
  rw [BitVec.extractLsb'_toNat, Nat.shiftRight_eq_div_pow]

/-! ### What a host can name -/

/-- A host can name the inputs, STATUS and the result state, and nothing of the model's own fields. -/
theorem readReg_congr {s t : State} (hinp : t.inp = s.inp) (hstatus : t.status = s.status) (hres : t.res = s.res)
    (r : HostReg) : readReg t r = readReg s r := by
  cases r <;> simp only [readReg, hinp, hstatus, hres]

theorem readReg_rx_eq_ok {s : State} {i : Fin 256} {b : Byte} (h : Memory.read s.inp.rx i.val = some b) :
    readReg s (.rx i) = .ok (.byte b) := by
  simp only [readReg, h]

theorem readReg_rx_congr {s t : State} {i : Fin 256}
    (h : Memory.read t.inp.rx i.val = Memory.read s.inp.rx i.val) : readReg t (.rx i) = readReg s (.rx i) := by
  simp only [readReg, h]

theorem readReg_hostWriteArg_same (i : Fin 3) (v : Word) (s : State) :
    readReg (hostWriteArg i v s) (.arg i) = .ok (.word v) := by
  simp [readReg]

theorem readReg_hostWriteArg_other {i : Fin 3} {r : HostReg} (v : Word) (s : State) (h : r ≠ .arg i) :
    readReg (hostWriteArg i v s) r = readReg s r := by
  cases r with
  | arg j =>
    have hij : i.val ≠ j.val := fun e => h (congrArg HostReg.arg (Fin.ext e.symm))
    simp [readReg, hij]
  | rxLen | rx _ | status | result _ => rfl

theorem readReg_hostWriteRx_same (i : Fin 256) (b : Byte) (s : State) :
    readReg (hostWriteRx i b s) (.rx i) = .ok (.byte b) :=
  readReg_rx_eq_ok (Memory.read_write_same s.inp.rx i.val b)

theorem readReg_hostWriteRx_other {i : Fin 256} {r : HostReg} (b : Byte) (s : State) (h : r ≠ .rx i) :
    readReg (hostWriteRx i b s) r = readReg s r := by
  cases r with
  | rx j =>
    have hji : j.val ≠ i.val := fun e => h (congrArg HostReg.rx (Fin.ext e))
    exact readReg_rx_congr (Memory.read_write_other s.inp.rx b hji)
  | arg _ | rxLen | status | result _ => rfl

theorem readReg_hostWriteRxLen_same (n : Byte) (s : State) : readReg (hostWriteRxLen n s) .rxLen = .ok (.byte n) :=
  rfl

theorem readReg_hostWriteRxLen_other {r : HostReg} (n : Byte) (s : State) (h : r ≠ .rxLen) :
    readReg (hostWriteRxLen n s) r = readReg s r := by
  cases r with
  | rxLen => exact absurd rfl h
  | arg _ | rx _ | status | result _ => rfl

/-! ### Two pending host operations -/

theorem hostRead_eq_next {r : HostReg} {s : State} {v : HostValue} (h : readReg s r = .ok v) :
    hostRead r s = .next { s with hostReads := s.hostReads ++ [v] } := by
  simp only [hostRead, h]

/-- R62: a pending read takes the value that its target holds, and leaves the rest pending. -/
theorem step_of_pending_read {s : State} {r : HostReg} {rest : List Event} {v : HostValue}
    (hp : s.pending = .host (.read r) :: rest) (hv : readReg s r = .ok v) :
    step s = .next { s with pending := rest, hostReads := s.hostReads ++ [v] } := by
  have hv' : readReg { s with pending := rest } r = .ok v := (readReg_congr rfl rfl rfl r).trans hv
  rw [step_of_pending hp]
  exact hostRead_eq_next hv'

end Sys2Proof.Machine
end

section
/-! PROOFS. The block as a memory of the host's (20_memory.md): O33, O34, O38, O39, O40, O41, O42, O43. -/

namespace Sys2Proof.Machine

/-- Settles O34: every OP is a body in the frame, and the frame writes nothing else. -/
theorem issueChangesOnlyStatusAndResults : Obligations.IssueChangesOnlyStatusAndResults := by
  intro op s t h
  rw [issue_eq_commandFrame] at h
  exact commandFrame_changes_only_report h

/-- Settles O33: the body depends on OP and the inputs alone, and a command keeps the inputs, so that issued again it
runs the same body. -/
theorem commandsAreFunctionsOfTheInputs : Obligations.CommandsAreFunctionsOfTheInputs := by
  refine ⟨fun op s t hinp => ?_, fun op s t h => ?_⟩
  · rw [issue_eq_commandFrame, issue_eq_commandFrame, hinp]
    exact commandFrame_sameReport op _ s t
  · have hinp : t.inp = s.inp := by rw [issueChangesOnlyStatusAndResults op s t h]
    rw [issue_eq_commandFrame] at h
    rw [issue_eq_commandFrame, hinp]
    exact commandFrame_idempotent h

/-- Settles O38: MemRead answers the cells put together, most significant byte first, and those as a number. -/
theorem memReadIsBigEndian : Obligations.MemReadIsBigEndian := by
  refine ⟨fun inp off h v => memRead1_eq_ok_iff, fun inp off h v => ?_, fun inp off h v => ?_⟩
  · simp only [memRead2_eq_ok_iff, two_bytes_append_eq_iff, uint_eq_toNat]
  · simp only [memRead4_eq_ok_iff, four_bytes_append_eq_iff, uint_eq_toNat]

/-- Settles O39: the four cells of the field are the two cells of either half. -/
theorem halvesOfAWordField : Obligations.HalvesOfAWordField := by
  intro inp off h v hv
  obtain ⟨a, b, c, d, ha, hb, hc, hd, rfl⟩ := memRead4_eq_ok_iff.1 hv
  rw [four_bytes_eq_halves_append, extract_high_halves_append, extract_low_halves_append]
  exact ⟨memRead2_eq_ok ha hb, memRead2_eq_ok hc hd⟩

/-- Settles O40: each cell of the field gets its byte, and a byte of the field is a quotient by a power of 2. -/
theorem memWriteIsBigEndian : Obligations.MemWriteIsBigEndian := by
  refine ⟨tx_memWrite1, fun r off v h k => ?_, fun r off v h k => ?_⟩
  · rw [tx_memWrite2, apply_ite uint, uint_eq_toNat, toNat_extract_byte]
  · rw [tx_memWrite4, apply_ite uint, uint_eq_toNat, toNat_extract_byte]

/-- Settles O42, by the target: it reads as written, and every other name as before. -/
theorem hostWritesChangeOnlyTheirTarget : Obligations.HostWritesChangeOnlyTheirTarget := fun s =>
  ⟨fun i v => ⟨_, rfl, readReg_hostWriteArg_same i v s, fun _ => readReg_hostWriteArg_other v s⟩,
    fun i b => ⟨_, rfl, readReg_hostWriteRx_same i b s, fun _ => readReg_hostWriteRx_other b s⟩,
    fun n => ⟨_, rfl, readReg_hostWriteRxLen_same n s, fun _ => readReg_hostWriteRxLen_other n s⟩⟩

/-- Settles O43: a read answers and records, which no name of the host shows, or its target is an unwritten cell. -/
theorem hostReadOnlyReads : Obligations.HostReadOnlyReads := by
  intro s r
  rcases hostRead_cases r s with ⟨v, hv, hnext⟩ | ⟨i, rfl, hnone, hfault⟩
  · refine ⟨⟨fun hf => ?_, ?_⟩, fun _ => ⟨_, v, hnext, hv, rfl, rfl, readReg_congr rfl rfl rfl⟩⟩
    · cases hnext.symm.trans hf
    · rintro ⟨i, rfl, hnone⟩
      simp [readReg, hnone] at hv
  · refine ⟨iff_of_true hfault ⟨i, rfl, hnone⟩, fun hwritten => ?_⟩
    have hsome := hwritten i rfl
    simp [hnone] at hsome

/-- Settles O41: the first step leaves the value in its target and the read next, and the second step takes it. -/
theorem hostReadsWhatItWrote : Obligations.HostReadsWhatItWrote := fun _ _ =>
  ⟨fun i v hp => ⟨_, step_of_pending hp, step_of_pending_read rfl (readReg_hostWriteArg_same i v _)⟩,
    fun i b hp => ⟨_, step_of_pending hp, step_of_pending_read rfl (readReg_hostWriteRx_same i b _)⟩,
    fun n hp => ⟨_, step_of_pending hp, step_of_pending_read rfl (readReg_hostWriteRxLen_same n _)⟩⟩

end Sys2Proof.Machine
end

section
/-! SUPPORT. What an operation takes from its inputs (30_encoding.md R72, R86 to R89): the error of a payload below the
expected size, and which inputs two states must share for their bodies to answer the same. -/

namespace Sys2Proof.Machine

/-! ### STATUS and the frame -/

/-- R27: STATUS after a failed command, as the number the statements write. -/
theorem statusWord_of_error (op : Byte) {err : BitVec 4} (herr : err ≠ 0) :
    statusWord op err = BitVec.ofNat 32 (uint op * 256 + (err.toNat * 16 + 1)) := by
  have hop := op.isLt
  have herr_lt := err.isLt
  apply BitVec.eq_of_toNat_eq
  rw [toNat_statusWord, if_neg herr, BitVec.toNat_ofNat, uint_eq_toNat]
  omega

/-- A command whose body raises an error. -/
theorem exec_of_body_raised {i : Instr} {s : State} {e : CmdError} (h : bodyOf i s.inp = .error (.raised e)) :
    exec i s = .next (raiseError (opcode i) e s) := by
  rw [exec_eq_commandFrame, h]
  rfl

/-- A command whose body answers its writes. -/
theorem exec_of_body_ok {i : Instr} {s : State} {out : List ResultWrite} (h : bodyOf i s.inp = .ok out) :
    exec i s = .next (complete (opcode i) out s) := by
  rw [exec_eq_commandFrame, h]
  rfl

/-- A command that ends with OK = 1 has completed with the writes of its body. -/
theorem exec_eq_complete {i : Instr} {s t : State} (h : exec i s = .next t) (hok : statusOk t.status = true) :
    ∃ out, bodyOf i s.inp = .ok out ∧ t = complete (opcode i) out s := by
  rw [exec_eq_commandFrame] at h
  rcases commandFrame_eq_next h with hcomplete | ⟨e, _, rfl⟩
  · exact hcomplete
  · rw [statusOk_raiseError] at hok
    cases hok

theorem exec_sameReport_of_body_eq {i : Instr} {s t : State} (h : bodyOf i s.inp = bodyOf i t.inp) :
    sameReport (exec i s) (exec i t) := by
  rw [exec_eq_commandFrame, exec_eq_commandFrame, h]
  exact commandFrame_sameReport _ _ s t

/-! ### DEC.MRS by its width -/

/-- R161, the layout of width 1. -/
theorem bodyDecMrs_of_width_one {inp : Inputs} (hw : opWidth inp = 1) :
    bodyDecMrs inp = do
      checkLen inp 18
      let regval ← memRead2 inp 0
      let mode ← memRead1 inp 2
      let tail ← decodeTail inp 3
      return [.rRegval (zext 32 regval), .rMode mode] ++ tail := by
  rw [bodyDecMrs, hw, checkWidth_eq_ok (.inl rfl)]
  rfl

/-- R161, the layout of width 2. -/
theorem bodyDecMrs_of_width_two {inp : Inputs} (hw : opWidth inp = 2) :
    bodyDecMrs inp = do
      checkLen inp 20
      let regval ← memRead4 inp 0
      let mode ← memRead1 inp 4
      let tail ← decodeTail inp 5
      return [.rRegval regval, .rMode mode] ++ tail := by
  rw [bodyDecMrs, hw, checkWidth_eq_ok (.inr rfl)]
  rfl

/-- R161: any other width is an ArgumentError. -/
theorem bodyDecMrs_of_bad_width {inp : Inputs} (h1 : opWidth inp ≠ 1) (h2 : opWidth inp ≠ 2) :
    bodyDecMrs inp = .error (.raised (.argument .registerWidth)) := by
  rw [bodyDecMrs, checkWidth_eq_error h1 h2]
  rfl

/-- R85: the widths that give DEC.MRS an expected size. -/
theorem expectedSize_decMrs_cases {w : Byte} {n : Nat} (h : expectedSize .decMrs w = some n) :
    (w = 1 ∧ n = 18) ∨ (w = 2 ∧ n = 20) := by
  unfold expectedSize at h
  split_ifs at h with h1 h2
  · exact .inl ⟨h1, (Option.some.inj h).symm⟩
  · exact .inr ⟨h2, (Option.some.inj h).symm⟩

/-! ### The length check -/

/-- R86: where an operation has an expected size, its body is CheckLen of that size and then its fields. -/
theorem bodyOf_eq_checkLen_bind {i : Instr} {inp : Inputs} {n : Nat} (hn : expectedSize i (opWidth inp) = some n) :
    ∃ fields : Unit → Body, bodyOf i inp = checkLen inp n >>= fields := by
  cases i with
  | decHssU8 | decHssU32 | decMcs | decMws =>
    obtain rfl := Option.some.inj hn
    exact ⟨_, rfl⟩
  | decMrs =>
    rcases expectedSize_decMrs_cases hn with ⟨hw, rfl⟩ | ⟨hw, rfl⟩
    · exact ⟨_, bodyDecMrs_of_width_one hw⟩
    · exact ⟨_, bodyDecMrs_of_width_two hw⟩
  | packSplit | unpackS32 | unpackU32 | encHss | encMcs | encMrs | encMws => cases hn

/-- R87: a payload below the expected size raises FrameLengthError, before any RX cell is read. -/
theorem bodyOf_of_short {i : Instr} {inp : Inputs} {n : Nat} (hn : expectedSize i (opWidth inp) = some n)
    (hlen : uint inp.rxLen < n) : bodyOf i inp = .error (.raised (.frameLength n (uint inp.rxLen))) := by
  obtain ⟨fields, hbody⟩ := bodyOf_eq_checkLen_bind hn
  rw [hbody, checkLen_eq_error hlen, error_bind]

/-- R87: what a command leaves on a payload below the expected size. -/
theorem exec_of_short {i : Instr} {s : State} {n : Nat} (hn : expectedSize i (opWidth s.inp) = some n)
    (hlen : uint s.inp.rxLen < n) :
    exec i s = .next { s with
      res := Results.cleared, status := BitVec.ofNat 32 (uint (opcode i) * 256 + 0x11) } := by
  rw [exec_of_body_raised (bodyOf_of_short hn hlen), raiseError_frameLength, statusWord_of_error _ (by decide)]
  rfl

/-! ### Bodies on inputs that agree -/

/-- The first `n` RX cells of the two input states hold the same, written or not. -/
def RxAgree (a b : Inputs) (n : Nat) : Prop := ∀ k < n, Memory.read a.rx k = Memory.read b.rx k

section
variable {a b : Inputs} {n : Nat}

theorem rxCell_congr (hrx : RxAgree a b n) (k : Fin 256) (hk : k.val < n) : rxCell a k = rxCell b k := by
  simp only [rxCell, hrx k hk]

theorem memRead1_congr (hrx : RxAgree a b n) {off : Nat} (h : off + 1 ≤ 256) (hoff : off + 1 ≤ n) :
    memRead1 a off h = memRead1 b off h :=
  rxCell_congr hrx _ hoff

theorem memRead2_congr (hrx : RxAgree a b n) {off : Nat} (h : off + 2 ≤ 256) (hoff : off + 2 ≤ n) :
    memRead2 a off h = memRead2 b off h := by
  rw [memRead2, rxCell_congr hrx ⟨off, _⟩ (by simp; omega), rxCell_congr hrx ⟨off + 1, _⟩ (by simp; omega)]
  rfl

theorem memRead4_congr (hrx : RxAgree a b n) {off : Nat} (h : off + 4 ≤ 256) (hoff : off + 4 ≤ n) :
    memRead4 a off h = memRead4 b off h := by
  rw [memRead4, rxCell_congr hrx ⟨off, _⟩ (by simp; omega), rxCell_congr hrx ⟨off + 1, _⟩ (by simp; omega),
    rxCell_congr hrx ⟨off + 2, _⟩ (by simp; omega), rxCell_congr hrx ⟨off + 3, _⟩ (by simp; omega)]
  rfl

theorem decodeTail_congr (hrx : RxAgree a b n) {off : Nat} (h : off + 15 ≤ 256) (hoff : off + 15 ≤ n) :
    decodeTail a off h = decodeTail b off h := by
  rw [decodeTail, memRead4_congr hrx (off := off + 0) _ (by omega), memRead4_congr hrx (off := off + 4) _ (by omega),
    memRead2_congr hrx (off := off + 8) _ (by omega), memRead1_congr hrx (off := off + 10) _ (by omega),
    memRead2_congr hrx (off := off + 11) _ (by omega), memRead2_congr hrx (off := off + 13) _ (by omega)]
  rfl

/-- R85: the expected size hangs on OP and, for DEC.MRS alone, on the width. -/
theorem expectedSize_congr {i : Instr} (hw : i = .decMrs → opWidth a = opWidth b) :
    expectedSize i (opWidth a) = expectedSize i (opWidth b) := by
  cases i with
  | decMrs => rw [hw rfl]
  | _ => rfl

/-- R88, R89: a decode whose length check passes takes the cells below its expected size and nothing else of RX_LEN
and RX. -/
theorem bodyOf_congr_of_decode {i : Instr} (hn : expectedSize i (opWidth a) = some n)
    (hw : i = .decMrs → opWidth a = opWidth b) (ha : n ≤ uint a.rxLen) (hb : n ≤ uint b.rxLen)
    (hrx : RxAgree a b n) : bodyOf i a = bodyOf i b := by
  cases i with
  | decHssU8 =>
    obtain rfl := Option.some.inj hn
    simp only [bodyOf, bodyDecHssU8, checkLen_eq_ok ha, checkLen_eq_ok hb, memRead1_congr hrx (off := 0) _ (by decide),
      memRead4_congr hrx (off := 1) _ (by decide), memRead2_congr hrx (off := 5) _ (by decide)]
  | decHssU32 =>
    obtain rfl := Option.some.inj hn
    simp only [bodyOf, bodyDecHssU32, checkLen_eq_ok ha, checkLen_eq_ok hb,
      memRead4_congr hrx (off := 0) _ (by decide), memRead4_congr hrx (off := 4) _ (by decide),
      memRead2_congr hrx (off := 8) _ (by decide)]
  | decMcs =>
    obtain rfl := Option.some.inj hn
    simp only [bodyOf, bodyDecMcs, checkLen_eq_ok ha, checkLen_eq_ok hb, decodeTail_congr hrx (off := 0) _ (by decide)]
  | decMws =>
    obtain rfl := Option.some.inj hn
    simp only [bodyOf, bodyDecMws, checkLen_eq_ok ha, checkLen_eq_ok hb, memRead1_congr hrx (off := 0) _ (by decide),
      decodeTail_congr hrx (off := 1) _ (by decide)]
  | decMrs =>
    rcases expectedSize_decMrs_cases hn with ⟨hwa, rfl⟩ | ⟨hwa, rfl⟩
    · simp only [bodyOf, bodyDecMrs_of_width_one hwa, bodyDecMrs_of_width_one ((hw rfl).symm.trans hwa),
        checkLen_eq_ok ha, checkLen_eq_ok hb, memRead2_congr hrx (off := 0) _ (by decide),
        memRead1_congr hrx (off := 2) _ (by decide), decodeTail_congr hrx (off := 3) _ (by decide)]
    · simp only [bodyOf, bodyDecMrs_of_width_two hwa, bodyDecMrs_of_width_two ((hw rfl).symm.trans hwa),
        checkLen_eq_ok ha, checkLen_eq_ok hb, memRead4_congr hrx (off := 0) _ (by decide),
        memRead1_congr hrx (off := 4) _ (by decide), decodeTail_congr hrx (off := 5) _ (by decide)]
  | packSplit | unpackS32 | unpackU32 | encHss | encMcs | encMrs | encMws => cases hn

/-- R72: where no payload is decoded, the body is a function of the ARG fields that the operation reads. -/
theorem bodyOf_congr_of_no_size {i : Instr} (hn : expectedSize i (opWidth a) = none) (h : operandsAgree i a b) :
    bodyOf i a = bodyOf i b := by
  obtain ⟨hops, -⟩ := h
  cases i with
  | packSplit => simp only [bodyOf, bodyPackSplit, show opValue a = opValue b from hops]
  | unpackS32 =>
    obtain ⟨hlow, hhigh⟩ := hops
    simp only [bodyOf, bodyUnpackS32, hlow, hhigh]
  | unpackU32 =>
    obtain ⟨hlow, hhigh⟩ := hops
    simp only [bodyOf, bodyUnpackU32, hlow, hhigh]
  | encHss =>
    obtain ⟨henable, hbaud, hdelay⟩ := hops
    simp only [bodyOf, bodyEncHss, henable, hbaud, hdelay]
  | encMcs =>
    obtain ⟨hsub, hdata⟩ := hops
    simp only [bodyOf, bodyEncMcs, hsub, hdata]
  | encMrs =>
    obtain ⟨haddr, hwidth⟩ := hops
    simp only [bodyOf, bodyEncMrs, haddr, hwidth]
  | encMws =>
    obtain ⟨haddr, hwidth, hdata⟩ := hops
    simp only [bodyOf, bodyEncMws, haddr, hwidth, hdata]
  | decMrs =>
    have hwidth : opWidth a = opWidth b := hops
    have h1 : opWidth a ≠ 1 := fun e => by simp [expectedSize, e] at hn
    have h2 : opWidth a ≠ 2 := fun e => by simp [expectedSize, e] at hn
    simp only [bodyOf, bodyDecMrs_of_bad_width h1 h2, bodyDecMrs_of_bad_width (hwidth ▸ h1) (hwidth ▸ h2)]
  | decHssU8 | decHssU32 | decMcs | decMws => cases hn

/-- Two decodes whose payloads are both long enough agree on their operands where the cells below the size do. -/
theorem exec_sameReport_of_decode {i : Instr} {s t : State} (hn : expectedSize i (opWidth s.inp) = some n)
    (hw : i = .decMrs → opWidth s.inp = opWidth t.inp) (hs : n ≤ uint s.inp.rxLen) (ht : n ≤ uint t.inp.rxLen)
    (hrx : RxAgree s.inp t.inp n) : sameReport (exec i s) (exec i t) :=
  exec_sameReport_of_body_eq (bodyOf_congr_of_decode hn hw hs ht hrx)

/-- Two payloads below the expected size report the same, whatever their lengths. -/
theorem exec_sameReport_of_short {i : Instr} {s t : State} (hs : expectedSize i (opWidth s.inp) = some n)
    (ht : expectedSize i (opWidth t.inp) = some n) (hslen : uint s.inp.rxLen < n) (htlen : uint t.inp.rxLen < n) :
    sameReport (exec i s) (exec i t) := by
  rw [exec_of_short hs hslen, exec_of_short ht htlen]
  exact ⟨rfl, rfl⟩

end

/-- Cutting RX to the cells below `n` leaves those cells. -/
theorem read_filter_of_lt (m : Memory) {n k : Nat} (hk : k < n) :
    Memory.read (m.filter fun c => decide (c.1 < n)) k = Memory.read m k := by
  induction m with
  | nil => rfl
  | cons c rest ih =>
    obtain ⟨addr, v⟩ := c
    by_cases haddr : addr < n
    · simp [haddr, Memory.read, ih]
    · have hne : addr ≠ k := by omega
      simp [haddr, Memory.read, ih, hne]

/-- R84, first table: a payload that starts with the seven bytes of the u8 layout gives its three fields. -/
theorem bodyDecHssU8_of_payload {inp : Inputs} {state : Byte} {baud : Word} {delay : Half} {post : List Byte}
    (hlen : 7 ≤ uint inp.rxLen) (hrx : rxHolds inp ([state] ++ beBytes32 baud ++ beBytes16 delay ++ post)) :
    bodyDecHssU8 inp = .ok [.rState (zext 32 state), .rBaud baud, .rDelay delay] := by
  rw [bodyDecHssU8, checkLen_eq_ok hlen, memRead1_eq_field (off := 0) (pre := []) (v := state) hrx rfl rfl,
    memRead4_eq_field (off := 1) (pre := [state]) (v := baud) hrx (by simp; rfl) rfl,
    memRead2_eq_field (off := 5) (pre := [state] ++ beBytes32 baud) (v := delay) hrx (by simp; rfl) rfl]
  rfl

end Sys2Proof.Machine
end

section
/-! SUPPORT. The requests that the encoders build (30_encoding.md R79 to R82) as bytes of TX, and the decode operation
that answers each. -/

namespace Sys2Proof.Machine

/-! ### Fields of a request in TX -/

/-- R79 to R82: the request payload of an operation, which is empty where the operation builds none. -/
def requestBytes (i : Instr) (inp : Inputs) : List Byte :=
  match i with
  | .encHss => beBytes16 (hssSubFunction (opEnable inp)) ++ beBytes32 (opBaud inp) ++ beBytes16 (opDelay inp)
  | .encMcs => [opSub inp] ++ beBytes32 (opCommandData inp)
  | .encMrs => beBytes16 (opAddr inp) ++ [opWidth inp]
  | .encMws => beBytes16 (opAddr inp) ++ [opWidth inp] ++ beBytes32 (opWriteData inp)
  | .packSplit | .unpackS32 | .unpackU32 | .decHssU8 | .decHssU32 | .decMcs | .decMrs | .decMws => []

/-- A completed body leaves its request in TX, and 0 above it (R28). -/
theorem txHolds_requestBytes {i : Instr} {inp : Inputs} {out : List ResultWrite} (h : bodyOf i inp = .ok out) :
    txHolds (applyWrites Results.cleared out) (requestBytes i inp) := by
  intro k
  cases i with
  | encHss | encMcs =>
    obtain rfl := Except.ok.inj h
    fin_cases k <;> rfl
  | encMrs | encMws =>
    obtain ⟨_, _, hout⟩ := bind_eq_ok h
    obtain rfl := Except.ok.inj hout
    fin_cases k <;> rfl
  | packSplit | unpackS32 | unpackU32 | decHssU8 | decHssU32 | decMcs | decMrs | decMws =>
    exact tx_eq_zero_of_bodyOf h (Nat.zero_le _)

/-- R92: after a command with OK = 1 the TX cells hold its request. -/
theorem exec_txHolds {i : Instr} {s t : State} (h : exec i s = .next t) (hok : statusOk t.status = true) :
    txHolds t.res (requestBytes i s.inp) := by
  obtain ⟨out, hbody, rfl⟩ := exec_eq_complete h hok
  exact txHolds_requestBytes hbody

section
variable {r : Results} {pre post : List Byte}

theorem byte_of_txHolds {off : Nat} {v : Byte} (h : txHolds r (pre ++ ([v] ++ post))) (hl : pre.length = off)
    (hoff : off < 8) : r.tx[off] = v := by
  subst hl
  exact (h ⟨pre.length, hoff⟩).trans (by simp)

theorem half_of_txHolds {off : Nat} {v : Half} (h : txHolds r (pre ++ (beBytes16 v ++ post))) (hl : pre.length = off)
    (hoff : off + 1 < 8) : (r.tx[off] ++ r.tx[off + 1] : BitVec 16) = v := by
  subst hl
  have h0 : r.tx[pre.length] = v.extractLsb' 8 8 := (h ⟨pre.length, by omega⟩).trans (by simp [beBytes16])
  have h1 : r.tx[pre.length + 1] = v.extractLsb' 0 8 := (h ⟨pre.length + 1, hoff⟩).trans (by simp [beBytes16])
  rw [h0, h1, beBytes16_append]

theorem word_of_txHolds {off : Nat} {v : Word} (h : txHolds r (pre ++ (beBytes32 v ++ post))) (hl : pre.length = off)
    (hoff : off + 3 < 8) : (r.tx[off] ++ r.tx[off + 1] ++ r.tx[off + 2] ++ r.tx[off + 3] : BitVec 32) = v := by
  subst hl
  have h0 : r.tx[pre.length] = v.extractLsb' 24 8 := (h ⟨pre.length, by omega⟩).trans (by simp [beBytes32])
  have h1 : r.tx[pre.length + 1] = v.extractLsb' 16 8 := (h ⟨pre.length + 1, by omega⟩).trans (by simp [beBytes32])
  have h2 : r.tx[pre.length + 2] = v.extractLsb' 8 8 := (h ⟨pre.length + 2, by omega⟩).trans (by simp [beBytes32])
  have h3 : r.tx[pre.length + 3] = v.extractLsb' 0 8 := (h ⟨pre.length + 3, hoff⟩).trans (by simp [beBytes32])
  rw [h0, h1, h2, h3, beBytes32_append]

end

/-! ### Operand fields as numbers -/

/-- An operand field at the bottom of its ARG register is the register modulo a power of 2 (R72). -/
theorem toNat_extract_low (v : Word) (w : Nat) : (v.extractLsb' 0 w).toNat = v.toNat % 2 ^ w := by
  rw [BitVec.extractLsb'_toNat, Nat.shiftRight_zero]

/-- R73: the sub-function word hangs on the single bit ARG0[0]. -/
theorem hssSubFunction_opEnable (inp : Inputs) :
    hssSubFunction (opEnable inp) = if inp.args[0].getLsbD 0 = true then 0xFF00#16 else 0x0000#16 := by
  have hbit : opEnable inp = BitVec.ofBool (inp.args[0].getLsbD 0) := by
    apply BitVec.eq_of_getLsbD_eq
    intro j hj
    obtain rfl : j = 0 := by omega
    simp [opEnable]
  rw [hssSubFunction, hbit]
  cases inp.args[0].getLsbD 0 <;> rfl

/-! ### The decoder that answers a request -/

/-- R78, R243: each function code of R28 has, for either FC 65 layout, a decode operation of the same family. -/
theorem matchingDecoder_requestCode {i : Instr} (hi : requestCode i ≠ 0) (layout : Config.HssLayout) :
    ∃ d, matchingDecoder layout (requestCode i) = some d ∧ d.takesRx = true ∧
      (opcode d).extractLsb' 4 4 = (opcode i).extractLsb' 4 4 := by
  cases i with
  | encHss => cases layout with
    | u8 => exact ⟨.decHssU8, by decide⟩
    | u32 => exact ⟨.decHssU32, by decide⟩
  | encMcs => exact ⟨.decMcs, rfl, rfl, rfl⟩
  | encMrs => exact ⟨.decMrs, rfl, rfl, rfl⟩
  | encMws => exact ⟨.decMws, rfl, rfl, rfl⟩
  | packSplit | unpackS32 | unpackU32 | decHssU8 | decHssU32 | decMcs | decMrs | decMws => exact absurd rfl hi

/-! ### The registers a body names -/

theorem namedRegs_nodup (i : Instr) : (namedRegs i).Nodup := by
  cases i <;> decide

/-! ### OPs outside the table -/

/-- R75: each OP of the table lies between the listed ranges. -/
theorem toNat_opcode_cases (i : Instr) :
    (1 ≤ (opcode i).toNat ∧ (opcode i).toNat ≤ 3) ∨ (0x10 ≤ (opcode i).toNat ∧ (opcode i).toNat ≤ 0x12) ∨
    (0x20 ≤ (opcode i).toNat ∧ (opcode i).toNat ≤ 0x21) ∨ (0x30 ≤ (opcode i).toNat ∧ (opcode i).toNat ≤ 0x31) ∨
    (0x40 ≤ (opcode i).toNat ∧ (opcode i).toNat ≤ 0x41) := by
  cases i <;> decide

end Sys2Proof.Machine
end

section
/-! SUPPORT. The host operations of `rx=[...]` (30_encoding.md R93): the RX memory after a row of cell writes, and the
run through them. -/

namespace Sys2Proof.Machine

/-- RX after the bytes have been written to the cells from `k` on, in order. -/
def writeCells (m : Memory) (k : Nat) : List Nat → Memory
  | [] => m
  | b :: rest => writeCells (Memory.write m k (BitVec.ofNat 8 b)) (k + 1) rest

theorem read_writeCells_outside {j k : Nat} (bs : List Nat) (m : Memory) (h : j < k ∨ k + bs.length ≤ j) :
    Memory.read (writeCells m k bs) j = Memory.read m j := by
  induction bs generalizing m k with
  | nil => rfl
  | cons b rest ih =>
    rw [List.length_cons] at h
    rw [writeCells, ih _ (by omega), Memory.read_write_other m _ (by omega)]

theorem read_writeCells_inside {j k : Nat} (bs : List Nat) (m : Memory) (h : j < bs.length) :
    Memory.read (writeCells m k bs) (k + j) = some (BitVec.ofNat 8 bs[j]) := by
  induction bs generalizing m k j with
  | nil => exact absurd h (Nat.not_lt_zero _)
  | cons b rest ih =>
    rw [writeCells]
    cases j with
    | zero =>
      exact (read_writeCells_outside rest _ (.inl (Nat.lt_succ_self k))).trans (Memory.read_write_same m k _)
    | succ j =>
      have hj : j < rest.length := by simpa using h
      rw [show k + (j + 1) = k + 1 + j by omega, ih _ hj, List.getElem_cons_succ]

/-- R93: the cell writes of `rx=`, taken one by one, leave the bytes in RX and the rest pending. -/
theorem run_rxCellWrites (bs : List Nat) {k : Nat} {s : State} {rest : List Event} (m : Nat)
    (hp : s.pending = (rxCellWrites k bs).map Event.host ++ rest) (hk : k + bs.length ≤ 256) :
    Host.Core.run Sys2Proof.core (bs.length + m) s =
      Host.Core.run Sys2Proof.core m
        { s with pending := rest, inp := { s.inp with rx := writeCells s.inp.rx k bs } } := by
  induction bs generalizing k s with
  | nil => rw [List.length_nil, Nat.zero_add, writeCells, ← show s.pending = rest from hp]
  | cons b bytes ih =>
    rw [List.length_cons] at hk
    have hindex : (Fin.ofNat 256 k).val = k := Nat.mod_eq_of_lt (by omega)
    have hstep := step_of_pending (s := s) (e := .host (.writeRx (Fin.ofNat 256 k) (BitVec.ofNat 8 b))) hp
    have hrest := ih (k := k + 1) (s := hostWriteRx (Fin.ofNat 256 k) (BitVec.ofNat 8 b) { s with pending := _ }) rfl
      (by omega)
    rw [List.length_cons, Nat.add_right_comm]
    refine ((run_succ_of_next hstep _).trans hrest).trans (congrArg _ ?_)
    simp only [hostWriteRx, hindex, writeCells]

/-- R23, R93: the number of bytes of a well-formed `rx=` is a value of RX_LEN. -/
theorem length_le_of_rxWellFormed {bs : List Nat} (h : rxWellFormed bs = true) : bs.length ≤ 255 := by
  rw [rxWellFormed, Bool.and_eq_true] at h
  exact of_decide_eq_true h.1

end Sys2Proof.Machine
end

section
/-! PROOFS. The encoding (30_encoding.md): O4, O13, O20, O21, O22, O30, O31, O32, O49. -/

namespace Sys2Proof.Machine

/-- Settles O4: the OPs that decode are those of the table, none of which lies in the ranges of R75. -/
theorem opsOutsideTheTableAreIllegal : Obligations.OpsOutsideTheTableAreIllegal := by
  intro s op rest hp hop
  rw [step_of_pending hp]
  rcases issue_cases op { s with pending := rest } with ⟨i, hi, -⟩ | ⟨e, -, hissue⟩
  · have htable := toNat_opcode_cases i
    rw [decodeOp_eq_ok_iff.1 hi, uint_eq_toNat] at hop
    omega
  · refine hissue.trans ?_
    rw [raiseError, errorCode, statusWord_of_error op (by decide)]
    rfl

/-- Settles O13: TX holds the request as bytes, and the bytes of a field put together are the field. -/
theorem requestsReadBackTheOperands : Obligations.RequestsReadBackTheOperands := by
  refine ⟨fun s t h => ?_, fun s t h => ?_, fun s t h hok => ?_, fun s t h hok => ?_⟩
  · have hok : statusOk t.status = true := Host.Outcome.next.inj h ▸ statusOk_complete _ _ s
    have htx := exec_txHolds h hok
    refine ⟨?_, word_of_txHolds (off := 2) (pre := beBytes16 _) htx rfl (by decide), ?_⟩
    · rw [← hssSubFunction_opEnable]
      exact half_of_txHolds (off := 0) (pre := []) htx rfl (by decide)
    · have hdelay := half_of_txHolds (off := 6) (pre := beBytes16 _ ++ beBytes32 _) (post := []) (v := opDelay s.inp)
        htx rfl (by decide)
      exact (congrArg BitVec.toNat hdelay).trans (toNat_extract_low _ 16)
  · have hok : statusOk t.status = true := Host.Outcome.next.inj h ▸ statusOk_complete _ _ s
    have htx := exec_txHolds h hok
    have hsub := byte_of_txHolds (off := 0) (pre := []) (v := opSub s.inp) htx rfl (by decide)
    exact ⟨(congrArg BitVec.toNat hsub).trans (toNat_extract_low _ 8),
      word_of_txHolds (off := 1) (pre := [_]) (post := []) htx rfl (by decide)⟩
  · have htx := exec_txHolds h hok
    have haddr := half_of_txHolds (off := 0) (pre := []) (v := opAddr s.inp) htx rfl (by decide)
    have hwidth := byte_of_txHolds (off := 2) (pre := beBytes16 _) (post := []) (v := opWidth s.inp) htx rfl (by decide)
    exact ⟨(congrArg BitVec.toNat haddr).trans (toNat_extract_low _ 16),
      (congrArg BitVec.toNat hwidth).trans (toNat_extract_low _ 8)⟩
  · have htx := exec_txHolds h hok
    have haddr := half_of_txHolds (off := 0) (pre := []) (v := opAddr s.inp) htx rfl (by decide)
    have hwidth := byte_of_txHolds (off := 2) (pre := beBytes16 _) (v := opWidth s.inp) htx rfl (by decide)
    exact ⟨(congrArg BitVec.toNat haddr).trans (toNat_extract_low _ 16),
      (congrArg BitVec.toNat hwidth).trans (toNat_extract_low _ 8),
      word_of_txHolds (off := 3) (pre := beBytes16 _ ++ [_]) (post := []) htx rfl (by decide)⟩

/-- Settles O20: CheckLen comes before every read of RX. -/
theorem shortPayloadGivesNoPartialDecode : Obligations.ShortPayloadGivesNoPartialDecode :=
  fun _ _ _ _ => exec_of_short

/-- Settles O21: the cut keeps the width, reaches the expected size, and keeps the cells below it. -/
theorem trailingBytesAreIgnored : Obligations.TrailingBytesAreIgnored := by
  intro i s n _ hn hlen
  have hcut : n ≤ uint (BitVec.ofNat 8 n) := by
    have hrxLen := s.inp.rxLen.isLt
    rw [uint_eq_toNat] at hlen ⊢
    rw [BitVec.toNat_ofNat]
    omega
  exact exec_sameReport_of_decode hn (fun _ => rfl) hlen hcut fun k hk => (read_filter_of_lt s.inp.rx hk).symm

/-- Settles O22: the expected size and the cells below it are all that a decode takes from the payload. -/
theorem layoutNeverComesFromTheLength : Obligations.LayoutNeverComesFromTheLength := by
  refine ⟨fun i s t n _ _ hmod hrx hn => ?_, rfl, fun s _ hwidth hlen => ?_,
    fun s state baud delay x y z hlen hrx => ?_⟩
  · have hw : i = .decMrs → opWidth s.inp = opWidth t.inp := fun hi =>
      BitVec.eq_of_toNat_eq ((toNat_extract_low _ 8).trans ((hmod hi).trans (toNat_extract_low _ 8).symm))
    refine ⟨fun hs ht => exec_sameReport_of_decode hn hw hs ht fun k _ => ?_, fun hshort => ?_⟩
    · rw [hrx]
    · exact exec_of_short ((expectedSize_congr hw).symm.trans hn) hshort
  · have hn : expectedSize .decMrs (opWidth s.inp) = some 20 := by
      rw [(opWidth_eq_iff s.inp 2 (by decide)).2 hwidth]
      rfl
    exact exec_of_short hn (by omega)
  · rw [exec_of_body_ok (i := .decHssU8) (bodyDecHssU8_of_payload (by omega) hrx)]
    rfl

/-- Settles O30: the registers written are the list that the rule names, which repeats none. -/
theorem bodiesWriteNamedRegistersOnce : Obligations.BodiesWriteNamedRegistersOnce := by
  intro i inp out h
  rw [bodyOf_writes_namedRegs i inp out h]
  exact ⟨namedRegs_nodup i, fun _ => Iff.rfl⟩

/-- Settles O31: a success leaves the function code of its operation, and each code has its decoder. -/
theorem matchingDecoderIsOfTheSameFamily : Obligations.MatchingDecoderIsOfTheSameFamily := by
  intro i s t h hok hfc layout
  obtain ⟨out, hbody, rfl⟩ := exec_eq_complete h hok
  rw [complete_res, (request_of_bodyOf hbody).1] at hfc ⊢
  exact matchingDecoder_requestCode hfc layout

/-- Settles O32, by whether the operation has an expected size and whether the payload reaches it. -/
theorem commandsReadOnlyTheirOperands : Obligations.CommandsReadOnlyTheirOperands := by
  intro i s t hagree
  cases hn : expectedSize i (opWidth s.inp) with
  | none => exact exec_sameReport_of_body_eq (bodyOf_congr_of_no_size hn hagree)
  | some n =>
    obtain ⟨hops, hpayload⟩ := hagree
    obtain ⟨hlen, hrx⟩ := hpayload n hn
    have hw : i = .decMrs → opWidth s.inp = opWidth t.inp := by
      rintro rfl
      exact hops
    rcases Nat.lt_or_ge (uint s.inp.rxLen) n with hshort | hlong
    · exact exec_sameReport_of_short hn ((expectedSize_congr hw).symm.trans hn) hshort
        (Nat.lt_of_not_le fun ht => absurd (hlen.2 ht) (Nat.not_le.2 hshort))
    · exact exec_sameReport_of_decode hn hw hlong (hlen.1 hlong) (hrx hlong)

/-- Settles O49: the cell writes run first and leave the bytes, then RX_LEN is written. -/
theorem rxOperandFillsTheBuffer : Obligations.RxOperandFillsTheBuffer := by
  intro s bs hwf
  have hlen := length_le_of_rxWellFormed hwf
  have hp : (s.withProgram (rxWrites (some bs))).pending =
      (rxCellWrites 0 bs).map Event.host ++ [.host (.writeRxLen (BitVec.ofNat 8 bs.length))] := by
    rw [withProgram_pending, rxWrites, List.map_append]
    rfl
  have hcells := run_rxCellWrites bs 1 hp (by omega)
  have hlast := step_of_pending (s := { s with pending := _, inp := { s.inp with rx := writeCells s.inp.rx 0 bs } })
    (e := .host (.writeRxLen (BitVec.ofNat 8 bs.length))) (rest := []) rfl
  have hrun := hcells.trans ((run_succ_of_next hlast 0).trans (run_zero _))
  refine ⟨_, hrun, ?_, fun k hk => ?_, fun k hk => read_writeCells_outside bs s.inp.rx (.inr (by omega)), rfl, rfl,
    rfl, rfl⟩
  · exact Nat.mod_eq_of_lt (by omega)
  · rw [List.length_map] at hk
    have hread := read_writeCells_inside (k := 0) bs s.inp.rx hk
    rw [Nat.zero_add] at hread
    rw [List.getElem_map]
    exact hread

end Sys2Proof.Machine
end

section
/-! SUPPORT. The register-pair packer: a word as its two halves (00_scope.md R7), what PACK.SPLIT and the two UNPACKs end
in (40_register_pair.md R100 to R102), and the pair they see after the host's writes (R103). -/

namespace Sys2Proof.Machine

/-! ### Halves of a word -/

/-- R100: a 16-bit field of a word is the shifted word under the mask 0xFFFF. -/
theorem extract_half_eq_shift_mask (v : Word) (k : Nat) :
    v.extractLsb' k 16 = ((v >>> k) &&& 0xFFFF#32).setWidth 16 := by
  apply BitVec.eq_of_toNat_eq
  have hmask : v.toNat >>> k &&& 65535 = v.toNat >>> k % 65536 := Nat.and_two_pow_sub_one_eq_mod _ 16
  rw [BitVec.extractLsb'_toNat, BitVec.toNat_setWidth, BitVec.toNat_and, BitVec.toNat_ushiftRight, BitVec.toNat_ofNat,
    hmask, Nat.mod_mod]

/-- A half written to an ARG register at its own place is the field that an operation takes from it (R72). -/
theorem extract_low_zext (v : Half) : (zext 32 v).extractLsb' 0 16 = v := by
  apply BitVec.eq_of_toNat_eq
  have hlt := v.isLt
  rw [toNat_extract_low, BitVec.toNat_setWidth]
  omega

/-- R101: `{hi, lo}` as a signed number has the sign bit `hi[15]`. -/
theorem toInt_halves_append (hi lo : Half) :
    (hi ++ lo : BitVec 32).toInt =
      if hi.msb = true then ((hi.toNat * 65536 + lo.toNat : Nat) : Int) - 4294967296
      else ((hi.toNat * 65536 + lo.toNat : Nat) : Int) := by
  have hsign : (hi ++ lo : BitVec 32).msb = hi.msb := BitVec.msb_append.trans (if_neg (by decide))
  rw [BitVec.toInt_eq_msb_cond, toNat_halves_append, hsign]
  rfl

/-- The sign bit of the low half of a word is its bit 15. -/
theorem msb_extract_low (v : Word) : (v.extractLsb' 0 16).msb = v.getLsbD 15 := by
  simp [BitVec.msb_eq_getLsbD_last]

/-! ### The packer's commands -/

/-- The operand pair of an UNPACK as one word, `{hi, lo}` (R101, R102). -/
def pairWord (inp : Inputs) : Word := opHigh inp ++ opLow inp

theorem toNat_pairWord (inp : Inputs) :
    (pairWord inp).toNat = inp.args[1].toNat % 65536 * 65536 + inp.args[0].toNat % 65536 := by
  rw [pairWord, toNat_halves_append, opHigh, opLow, toNat_extract_low, toNat_extract_low]
  rfl

theorem toInt_pairWord (inp : Inputs) :
    (pairWord inp).toInt =
      if inp.args[1].getLsbD 15 = true then
        ((inp.args[1].toNat % 65536 * 65536 + inp.args[0].toNat % 65536 : Nat) : Int) - 4294967296
      else ((inp.args[1].toNat % 65536 * 65536 + inp.args[0].toNat % 65536 : Nat) : Int) := by
  rw [pairWord, toInt_halves_append, opHigh, opLow, msb_extract_low, toNat_extract_low, toNat_extract_low]
  rfl

/-- PACK.SPLIT always completes, with the two halves of ARG0. -/
theorem exec_packSplit (s : State) :
    exec .packSplit s = .next { s with
      status := 0x0103#32
      res := { Results.cleared with
        rLow := s.inp.args[0].extractLsb' 0 16
        rHigh := s.inp.args[0].extractLsb' 16 16 } } :=
  exec_of_body_ok (i := .packSplit) rfl

/-- Either UNPACK always completes, with the pair as one word: the two differ in the OP that STATUS reports alone. -/
theorem exec_unpack {i : Instr} (hop : i = .unpackS32 ∨ i = .unpackU32) (s : State) :
    exec i s = .next { s with
      status := statusWord (opcode i) 0
      res := { Results.cleared with rValue := pairWord s.inp } } := by
  have hbody : bodyOf i s.inp = .ok [.rValue (pairWord s.inp)] := by
    rcases hop with rfl | rfl <;> rfl
  exact exec_of_body_ok hbody

/-! ### Round trips through the host's writes -/

theorem args_hostWriteArg_same (i : Fin 3) (v : Word) (s : State) : (hostWriteArg i v s).inp.args[i] = v :=
  Vector.getElem_set_self i.isLt

theorem args_hostWriteArg_other {i j : Fin 3} (v : Word) (s : State) (h : i ≠ j) :
    (hostWriteArg i v s).inp.args[j] = s.inp.args[j] :=
  Vector.getElem_set_ne i.isLt j.isLt (Fin.val_ne_of_ne h)

/-- The pair after the host has written both operands of an UNPACK. -/
theorem pairWord_hostWriteArg (lo hi : Half) (s : State) :
    pairWord (hostWriteArg 1 (zext 32 hi) (hostWriteArg 0 (zext 32 lo) s)).inp = hi ++ lo := by
  have hhigh : opHigh (hostWriteArg 1 (zext 32 hi) (hostWriteArg 0 (zext 32 lo) s)).inp = hi :=
    (congrArg (BitVec.extractLsb' 0 16) (args_hostWriteArg_same 1 _ _)).trans (extract_low_zext hi)
  have hlow : opLow (hostWriteArg 1 (zext 32 hi) (hostWriteArg 0 (zext 32 lo) s)).inp = lo :=
    (congrArg (BitVec.extractLsb' 0 16)
      ((args_hostWriteArg_other _ _ (by decide)).trans (args_hostWriteArg_same 0 _ s))).trans (extract_low_zext lo)
  rw [pairWord, hhigh, hlow]

/-- R103, first half: the halves of a word, written back, are unpacked to the word. -/
theorem unpack_of_split_halves {i : Instr} (hop : i = .unpackS32 ∨ i = .unpackU32) (v : Word) (s : State) :
    ∃ t, exec i (hostWriteArg 1 (zext 32 (v.extractLsb' 16 16)) (hostWriteArg 0 (zext 32 (v.extractLsb' 0 16)) s)) =
        .next t ∧ t.res.rValue = v :=
  ⟨_, exec_unpack hop _, (pairWord_hostWriteArg _ _ s).trans (halves_append_extract v)⟩

/-- R103, second half: the unpacked pair, written back, is split to the pair. -/
theorem split_of_unpacked_pair {i : Instr} (hop : i = .unpackS32 ∨ i = .unpackU32) (s : State) :
    ∃ a b, exec i s = .next a ∧ exec .packSplit (hostWriteArg 0 a.res.rValue a) = .next b ∧
      b.res.rLow = s.inp.args[0].extractLsb' 0 16 ∧ b.res.rHigh = s.inp.args[1].extractLsb' 0 16 := by
  refine ⟨_, _, exec_unpack hop s, exec_packSplit _, ?_, ?_⟩
  · exact (congrArg (BitVec.extractLsb' 0 16) (args_hostWriteArg_same 0 _ _)).trans (extract_low_halves_append _ _)
  · exact (congrArg (BitVec.extractLsb' 16 16) (args_hostWriteArg_same 0 _ _)).trans (extract_high_halves_append _ _)

end Sys2Proof.Machine
end

section
/-! SUPPORT. Command lines of assembly (30_encoding.md R93): when a line is taken, what its ARG operands write, and which
integers a 32-bit operand stands for (40_register_pair.md R105). -/

namespace Sys2Proof.Machine

/-- A line by itself: refused, or its own host operations. -/
theorem assemble_singleton (l : Line) : assemble [l] = if l.wellFormed then some (lineOps l) else none := by
  simp [assemble]

theorem operandInteger_iff (x : Int) : operandInteger x = true ↔ -2147483648 ≤ x ∧ x ≤ 4294967295 := by
  simp [operandInteger]

/-- R105: a packer line with its own keys is taken exactly when every integer is in range. -/
theorem packerLine_wellFormed_iff {i : Instr} {args : List (Key × Int)} (hi : i.isPacker = true)
    (hkeys : ∀ a ∈ args, (i.keyArg a.1).isSome) :
    Line.wellFormed (.command ⟨i, args, none⟩) = true ↔ ∀ a ∈ args, operandInteger a.2 = true := by
  have hall : Line.wellFormed (.command ⟨i, args, none⟩) = true ↔
      ∀ a ∈ args, (i.keyArg a.1).isSome = true ∧ operandInteger a.2 = true := by
    simp [Line.wellFormed, Command.wellFormed, hi]
  rw [hall]
  exact forall₂_congr fun a ha => and_iff_right (hkeys a ha)

/-- The word of an integer in range stands for it: signed below 0, unsigned from 0 on. -/
theorem standsFor_ofInteger {x : Int} (hx : operandInteger x = true) : standsFor (ofInteger 32 x) x := by
  rw [operandInteger_iff] at hx
  unfold standsFor
  split
  · rw [sint_eq_toInt, BitVec.toInt_ofInt]
    exact Int.bmod_eq_of_le (by omega) (by omega)
  · rw [uint_eq_toNat, BitVec.toNat_ofInt]
    omega

/-- R93: with no key that the mnemonic lacks, each operand is one HostWriteArg, in the order written. -/
theorem argWrites_forall₂ {i : Instr} {args : List (Key × Int)} (rx : Option (List Nat))
    (hkeys : ∀ a ∈ args, (i.keyArg a.1).isSome) :
    List.Forall₂ (fun a o => ∃ r, i.keyArg a.1 = some r ∧ o = .writeArg r (ofInteger 32 a.2)) args
      (argWrites ⟨i, args, rx⟩) := by
  induction args with
  | nil => exact .nil
  | cons a rest ih =>
    obtain ⟨r, hr⟩ := Option.isSome_iff_exists.1 (hkeys a List.mem_cons_self)
    have hcons : argWrites ⟨i, a :: rest, rx⟩ = .writeArg r (ofInteger 32 a.2) :: argWrites ⟨i, rest, rx⟩ := by
      simp [argWrites, hr]
    rw [hcons]
    exact .cons ⟨r, hr, rfl⟩ (ih fun b hb => hkeys b (List.mem_cons_of_mem _ hb))

/-- The writes of a line whose integers are all in range are of words that stand for them. -/
theorem argWrites_standsFor {i : Instr} {args : List (Key × Int)} (rx : Option (List Nat))
    (hkeys : ∀ a ∈ args, (i.keyArg a.1).isSome) (hrange : ∀ a ∈ args, operandInteger a.2 = true) :
    List.Forall₂ (fun a o => ∃ r v, i.keyArg a.1 = some r ∧ o = .writeArg r v ∧ standsFor v a.2) args
      (argWrites ⟨i, args, rx⟩) := by
  refine ((List.forall₂_and_left _ _).2 ⟨hrange, argWrites_forall₂ rx hkeys⟩).imp ?_
  rintro a o ⟨hx, r, hr, rfl⟩
  exact ⟨r, _, hr, rfl, standsFor_ofInteger hx⟩

end Sys2Proof.Machine
end

section
/-! PROOFS. The register-pair packer (40_register_pair.md): O5, O6, O7, O8, O50. -/

namespace Sys2Proof.Machine

/-- Settles O5: the halves that PACK.SPLIT writes are the masked and shifted words of R100. -/
theorem packSplitSplitsTheWord : Obligations.PackSplitSplitsTheWord := by
  refine ⟨rfl, fun s _ => ?_⟩
  rw [exec_packSplit, extract_half_eq_shift_mask _ 0, extract_half_eq_shift_mask _ 16, BitVec.ushiftRight_zero]

/-- Settles O6: the pair's sign bit is `hi[15]`. -/
theorem unpackSignedCombinesThePair : Obligations.UnpackSignedCombinesThePair :=
  ⟨rfl, fun s _ => ⟨pairWord s.inp, exec_unpack (.inl rfl) s, rfl, toInt_pairWord s.inp⟩⟩

/-- Settles O7: both UNPACKs write the one word of the pair. -/
theorem unpackUnsignedCombinesThePair : Obligations.UnpackUnsignedCombinesThePair :=
  ⟨rfl, fun s _ =>
    ⟨pairWord s.inp, exec_unpack (.inr rfl) s, toNat_pairWord s.inp, exec_unpack (.inl rfl) s⟩⟩

/-- Settles O8: a word is its two halves, through the host's writes in either order. -/
theorem pairRoundTrips : Obligations.PairRoundTrips := by
  refine ⟨fun s _ => ⟨_, exec_packSplit s, ?_⟩, fun s _ => split_of_unpacked_pair (.inl rfl) s,
    fun s _ => split_of_unpacked_pair (.inr rfl) s⟩
  obtain ⟨b, hb, hbv⟩ := unpack_of_split_halves (.inl rfl) s.inp.args[0] _
  obtain ⟨c, hc, hcv⟩ := unpack_of_split_halves (.inr rfl) s.inp.args[0] _
  exact ⟨b, c, hb, hc, hbv, hcv⟩

/-- Settles O50: a packer line is well formed exactly when its integers are in range (log 6), and each operand in range
writes the word that stands for it. -/
theorem packerTakesExactlyThe32BitIntegers : Obligations.PackerTakesExactlyThe32BitIntegers := by
  refine ⟨fun k => by cases k <;> rfl, fun i hi k => ?_, fun i hi args hkeys => ?_⟩
  · obtain rfl | rfl : i = .unpackS32 ∨ i = .unpackU32 := by simpa using hi
    · cases k <;> rfl
    · cases k <;> rfl
  · have hpacker : i.isPacker = true := by
      simp only [List.mem_cons, List.not_mem_nil, or_false] at hi
      rcases hi with rfl | rfl | rfl <;> rfl
    have hwf := packerLine_wellFormed_iff hpacker hkeys
    rw [assemble_singleton]
    refine ⟨fun ⟨a, ha, hout⟩ => if_neg fun hline => ?_, fun hrange => ?_⟩
    · have hin := (operandInteger_iff a.2).1 (hwf.1 hline a ha)
      omega
    · have hin : ∀ a ∈ args, operandInteger a.2 = true := fun a ha => (operandInteger_iff a.2).2 (hrange a ha)
      refine ⟨argWrites ⟨i, args, none⟩, (if_pos (hwf.2 hin)).trans ?_, argWrites_standsFor none hkeys hin⟩
      simp [lineOps, commandOps, rxWrites]

end Sys2Proof.Machine
end

section
/-! SUPPORT. What an encoder leaves as a whole (30_encoding.md R74, R79 to R82), and what the two DEC.HSS answer on a
payload that starts with their layout (R84). -/

namespace Sys2Proof.Machine

/-! ### Requests -/

/-- R28: a request fills TX from the bottom and the cells above it are 0. -/
theorem toList_tx_of_txHolds {r : Results} {bs : List Byte} (h : txHolds r bs) (hlen : bs.length ≤ 8) :
    r.tx.toList = bs ++ List.replicate (8 - bs.length) 0 := by
  refine List.ext_getElem (by simp; omega) fun k hk _ => ?_
  have hk8 : k < 8 := by simpa using hk
  have hcell : r.tx[k] = bs.getD k 0 := h ⟨k, hk8⟩
  rw [Vector.getElem_toList, hcell]
  rcases Nat.lt_or_ge k bs.length with hin | hout
  · simp [hin]
  · simp [hout]

theorem requestBytes_length (i : Instr) (inp : Inputs) : (requestBytes i inp).length = (requestLength i).toNat := by
  cases i <;> rfl

theorem requestLength_le (i : Instr) : (requestLength i).toNat ≤ 8 := by
  cases i <;> decide

/-- The writes of an encoder's body name TX_FC, TX_LEN and TX, and no other result register. -/
theorem applyWrites_of_encoder {i : Instr} (hi : i ∈ [Instr.encHss, .encMcs, .encMrs, .encMws]) {inp : Inputs}
    {out : List ResultWrite} (h : bodyOf i inp = .ok out) :
    applyWrites Results.cleared out = { Results.cleared with
      txFc := requestCode i, txLen := requestLength i, tx := (applyWrites Results.cleared out).tx } := by
  cases i with
  | encHss | encMcs =>
    obtain rfl := Except.ok.inj h
    rfl
  | encMrs | encMws =>
    obtain ⟨_, _, hout⟩ := bind_eq_ok h
    obtain rfl := Except.ok.inj hout
    rfl
  | packSplit | unpackS32 | unpackU32 | decHssU8 | decHssU32 | decMcs | decMrs | decMws => exact absurd hi (by decide)

/-- An encoder whose body answers leaves its request in TX, its function code and length, and nothing else. -/
theorem exec_encoder_of_body_ok {i : Instr} (hi : i ∈ [Instr.encHss, .encMcs, .encMrs, .encMws]) {s : State}
    {out : List ResultWrite} (h : bodyOf i s.inp = .ok out) :
    ∃ tx : Vector Byte 8,
      exec i s = .next { s with
        status := statusWord (opcode i) 0
        res := { Results.cleared with txFc := requestCode i, txLen := requestLength i, tx := tx } } ∧
      tx.toList = requestBytes i s.inp ++ List.replicate (8 - (requestLength i).toNat) 0 := by
  have hlen := requestBytes_length i s.inp
  refine ⟨(applyWrites Results.cleared out).tx, ?_, ?_⟩
  · rw [exec_of_body_ok h, ← applyWrites_of_encoder hi h]
    rfl
  · rw [← hlen]
    exact toList_tx_of_txHolds (txHolds_requestBytes h) (hlen ▸ requestLength_le i)

/-! ### Responses of function code 65 -/

/-- R84, second table: a payload that starts with the ten bytes of the u32 layout gives its three fields. -/
theorem bodyDecHssU32_of_payload {inp : Inputs} {state baud : Word} {delay : Half} {post : List Byte}
    (hlen : 10 ≤ uint inp.rxLen) (hrx : rxHolds inp (beBytes32 state ++ beBytes32 baud ++ beBytes16 delay ++ post)) :
    bodyDecHssU32 inp = .ok [.rState state, .rBaud baud, .rDelay delay] := by
  rw [bodyDecHssU32, checkLen_eq_ok hlen, memRead4_eq_field (off := 0) (pre := []) (v := state) hrx (by simp; rfl) rfl,
    memRead4_eq_field (off := 4) (pre := beBytes32 state) (v := baud) hrx (by simp; rfl) rfl,
    memRead2_eq_field (off := 8) (pre := beBytes32 state ++ beBytes32 baud) (v := delay) hrx (by simp; rfl) rfl]
  rfl

/-- R121: DEC.HSS.U8 on a payload that starts with its seven bytes, whatever follows them. -/
theorem exec_decHssU8_of_payload {s : State} {state : Byte} {baud : Word} {delay : Half} {post : List Byte}
    (hlen : 7 ≤ uint s.inp.rxLen) (hrx : rxHolds s.inp ([state] ++ beBytes32 baud ++ beBytes16 delay ++ post)) :
    exec .decHssU8 s = .next { s with
      status := 0x1103#32
      res := { Results.cleared with rState := zext 32 state, rBaud := baud, rDelay := delay } } :=
  exec_of_body_ok (i := .decHssU8) (bodyDecHssU8_of_payload hlen hrx)

/-- R122: DEC.HSS.U32 on a payload that starts with its ten bytes, whatever follows them. -/
theorem exec_decHssU32_of_payload {s : State} {state baud : Word} {delay : Half} {post : List Byte}
    (hlen : 10 ≤ uint s.inp.rxLen)
    (hrx : rxHolds s.inp (beBytes32 state ++ beBytes32 baud ++ beBytes16 delay ++ post)) :
    exec .decHssU32 s = .next { s with
      status := 0x1203#32
      res := { Results.cleared with rState := state, rBaud := baud, rDelay := delay } } :=
  exec_of_body_ok (i := .decHssU32) (bodyDecHssU32_of_payload hlen hrx)

end Sys2Proof.Machine
end

section
/-! PROOFS. ManageHighSpeedStream, function code 65 (41_high_speed_stream.md): O9, O15, O16, O23. -/

namespace Sys2Proof.Machine

/-- Settles O9: an encoder leaves its request, and the sub-function word hangs on ARG0[0] alone. -/
theorem highSpeedRequestIsEncoded : Obligations.HighSpeedRequestIsEncoded := by
  refine ⟨rfl, fun s _ => ?_⟩
  obtain ⟨tx, hexec, htx⟩ := exec_encoder_of_body_ok (i := .encHss) (by decide) (s := s) rfl
  refine ⟨tx, hexec, ?_⟩
  rw [← hssSubFunction_opEnable]
  exact htx

/-- Settles O15: CheckLen of 7 passes and the three fields are read, or it fails before any read. -/
theorem highSpeedByteResponseIsDecoded : Obligations.HighSpeedByteResponseIsDecoded :=
  ⟨rfl, fun _ _ _ _ hlen hrx => exec_decHssU8_of_payload (post := []) hlen hrx,
    fun _ hshort => exec_of_short (i := .decHssU8) rfl hshort⟩

/-- Settles O16: CheckLen of 10 passes and the three fields are read, or it fails before any read. -/
theorem highSpeedWordResponseIsDecoded : Obligations.HighSpeedWordResponseIsDecoded :=
  ⟨rfl, fun _ _ _ _ hlen hrx => exec_decHssU32_of_payload (post := []) hlen hrx,
    fun _ hshort => exec_of_short (i := .decHssU32) rfl hshort⟩

/-- Settles O23: the ten bytes start with the seven of the u8 layout for 0, 256 and 2441. -/
theorem wrongHighSpeedLayoutGoesUnnoticed : Obligations.WrongHighSpeedLayoutGoesUnnoticed := fun _ hlen hrx =>
  exec_decHssU8_of_payload (state := 0) (baud := 256) (delay := 2441) (post := [0x68, 0x00, 0x50])
    (by omega) hrx

end Sys2Proof.Machine
end

section
/-! SUPPORT. What DEC.MCS answers on a payload that starts with the telemetry tail (30_encoding.md R83, R84). -/

namespace Sys2Proof.Machine

section
variable {pos force : Word} {power : Half} {temp : Byte} {volt errs : Half}

/-- R84: the response of function code 100 is the tail alone, at offset 0. -/
theorem bodyDecMcs_of_payload {inp : Inputs} (hlen : 15 ≤ uint inp.rxLen)
    (hrx : rxHolds inp (tailBytes pos force power temp volt errs)) :
    bodyDecMcs inp = .ok [.rPos pos, .rForce force, .rPower power, .rTemp temp, .rVolt volt, .rErrs errs] := by
  rw [bodyDecMcs, checkLen_eq_ok hlen]
  exact decodeTail_eq_ok (pre := []) pos force power temp volt errs hrx rfl rfl

/-- R141: DEC.MCS on a payload that starts with the tail. -/
theorem exec_decMcs_of_payload {s : State} (hlen : 15 ≤ uint s.inp.rxLen)
    (hrx : rxHolds s.inp (tailBytes pos force power temp volt errs)) :
    exec .decMcs s = .next { s with
      status := 0x2103#32
      res := { Results.cleared with
        rPos := pos, rForce := force, rPower := power, rTemp := temp, rVolt := volt, rErrs := errs } } :=
  exec_of_body_ok (i := .decMcs) (bodyDecMcs_of_payload hlen hrx)

end

end Sys2Proof.Machine
end

section
/-! PROOFS. MotorCommandStream, function code 100 (42_motor_command_stream.md): O17, O10. -/

namespace Sys2Proof.Machine

/-- Settles O17: CheckLen of 15 passes and the six fields of the tail are read, or it fails before any read. -/
theorem motorCommandResponseIsDecoded : Obligations.MotorCommandResponseIsDecoded :=
  ⟨rfl, fun _ _ _ _ _ _ _ hlen hrx => exec_decMcs_of_payload hlen hrx,
    fun _ hshort => exec_of_short (i := .decMcs) rfl hshort⟩

/-- Settles O10: an encoder leaves its request, which for ENC.MCS is the sub-function byte, unchecked, and the data. -/
theorem motorCommandRequestIsEncoded : Obligations.MotorCommandRequestIsEncoded :=
  ⟨rfl, fun _ _ => exec_encoder_of_body_ok (i := .encMcs) (by decide) rfl⟩

end Sys2Proof.Machine
end

section
/-! SUPPORT. The register width of ENC.MRS, DEC.MRS and ENC.MWS (43_motor_read_stream.md R160, 60_exceptions.md R203),
and what DEC.MRS answers on a payload of either width (30_encoding.md R84). -/

namespace Sys2Proof.Machine

/-! ### The width check -/

/-- The widths that pass the check, as ARG1[7:0] read as a number. -/
theorem opWidth_legal_iff (inp : Inputs) :
    (opWidth inp = 1 ∨ opWidth inp = 2) ↔ (uint inp.args[1] % 256 = 1 ∨ uint inp.args[1] % 256 = 2) :=
  or_congr (opWidth_eq_iff inp 1 (by decide)) (opWidth_eq_iff inp 2 (by decide))

/-- R203: the three operations with a width raise ArgumentError on any but 1 and 2, before anything else. -/
theorem bodyOf_of_bad_width {i : Instr} {inp : Inputs} (hi : checksWidth i = true)
    (h1 : opWidth inp ≠ 1) (h2 : opWidth inp ≠ 2) :
    bodyOf i inp = .error (.raised (.argument .registerWidth)) := by
  cases i with
  | encMrs => rw [bodyOf, bodyEncMrs, checkWidth_eq_error h1 h2, error_bind]
  | decMrs => exact bodyDecMrs_of_bad_width h1 h2
  | encMws => rw [bodyOf, bodyEncMws, checkWidth_eq_error h1 h2, error_bind]
  | packSplit | unpackS32 | unpackU32 | encHss | decHssU8 | decHssU32 | encMcs | decMcs | decMws => cases hi

/-- R203: what a command with a bad width leaves. -/
theorem exec_of_bad_width {i : Instr} {s : State} (hi : checksWidth i = true)
    (h1 : uint s.inp.args[1] % 256 ≠ 1) (h2 : uint s.inp.args[1] % 256 ≠ 2) :
    exec i s = .next { s with
      res := Results.cleared, status := BitVec.ofNat 32 (uint (opcode i) * 256 + 0x31) } := by
  have hw1 : opWidth s.inp ≠ 1 := mt (opWidth_eq_iff s.inp 1 (by decide)).1 h1
  have hw2 : opWidth s.inp ≠ 2 := mt (opWidth_eq_iff s.inp 2 (by decide)).1 h2
  rw [exec_of_body_raised (bodyOf_of_bad_width hi hw1 hw2), raiseError, errorCode, statusWord_of_error _ (by decide)]
  rfl

/-- R160: the width check is the only one of ENC.MRS. -/
theorem bodyEncMrs_of_legal_width {inp : Inputs} (hw : opWidth inp = 1 ∨ opWidth inp = 2) :
    bodyEncMrs inp = .ok (memWrite2 0 (opAddr inp) ++ memWrite1 2 (opWidth inp) ++ [.txFc 104, .txLen 3]) := by
  rw [bodyEncMrs, checkWidth_eq_ok hw]
  rfl

/-! ### Responses of function code 104 -/

section
variable {mode : Byte} {pos force : Word} {power : Half} {temp : Byte} {volt errs : Half}

/-- R84, width 1: a payload that holds the 18-byte layout gives its eight fields. -/
theorem bodyDecMrs_of_payload_width_one {inp : Inputs} {regval : Half} (hw : opWidth inp = 1)
    (hlen : 18 ≤ uint inp.rxLen)
    (hrx : rxHolds inp (beBytes16 regval ++ [mode] ++ tailBytes pos force power temp volt errs)) :
    bodyDecMrs inp = .ok [.rRegval (zext 32 regval), .rMode mode,
      .rPos pos, .rForce force, .rPower power, .rTemp temp, .rVolt volt, .rErrs errs] := by
  rw [bodyDecMrs_of_width_one hw, checkLen_eq_ok hlen,
    memRead2_eq_field (off := 0) (pre := []) (v := regval) hrx (by simp; rfl) rfl,
    memRead1_eq_field (off := 2) (pre := beBytes16 regval) (v := mode) hrx (by simp; rfl) rfl,
    decodeTail_eq_ok (b := 3) (pre := beBytes16 regval ++ [mode]) pos force power temp volt errs hrx rfl rfl]
  rfl

/-- R84, width 2: a payload that holds the 20-byte layout gives its eight fields. -/
theorem bodyDecMrs_of_payload_width_two {inp : Inputs} {regval : Word} (hw : opWidth inp = 2)
    (hlen : 20 ≤ uint inp.rxLen)
    (hrx : rxHolds inp (beBytes32 regval ++ [mode] ++ tailBytes pos force power temp volt errs)) :
    bodyDecMrs inp = .ok [.rRegval regval, .rMode mode,
      .rPos pos, .rForce force, .rPower power, .rTemp temp, .rVolt volt, .rErrs errs] := by
  rw [bodyDecMrs_of_width_two hw, checkLen_eq_ok hlen,
    memRead4_eq_field (off := 0) (pre := []) (v := regval) hrx (by simp; rfl) rfl,
    memRead1_eq_field (off := 4) (pre := beBytes32 regval) (v := mode) hrx (by simp; rfl) rfl,
    decodeTail_eq_ok (b := 5) (pre := beBytes32 regval ++ [mode]) pos force power temp volt errs hrx rfl rfl]
  rfl

end

/-- R161: at either width the length that raises FrameLengthError is below the expected size of R85. -/
theorem expectedSize_decMrs_of_short {inp : Inputs}
    (h : uint inp.args[1] % 256 = 1 ∧ uint inp.rxLen < 18 ∨ uint inp.args[1] % 256 = 2 ∧ uint inp.rxLen < 20) :
    ∃ n, expectedSize .decMrs (opWidth inp) = some n ∧ uint inp.rxLen < n := by
  rcases h with ⟨hwidth, hlen⟩ | ⟨hwidth, hlen⟩
  · exact ⟨18, by rw [(opWidth_eq_iff inp 1 (by decide)).2 hwidth]; rfl, hlen⟩
  · exact ⟨20, by rw [(opWidth_eq_iff inp 2 (by decide)).2 hwidth]; rfl, hlen⟩

end Sys2Proof.Machine
end

section
/-! PROOFS. MotorReadStream, function code 104 (43_motor_read_stream.md): O11, O18. -/

namespace Sys2Proof.Machine

/-- Settles O11: a width that passes the check lets the encoder leave its request, and any other raises ArgumentError. -/
theorem motorReadRequestIsEncoded : Obligations.MotorReadRequestIsEncoded := by
  refine ⟨rfl, fun s _ => ⟨fun hwidth => ?_, fun hbad => ?_⟩⟩
  · have hbody := bodyEncMrs_of_legal_width ((opWidth_legal_iff s.inp).2 hwidth)
    exact exec_encoder_of_body_ok (i := .encMrs) (by decide) hbody
  · obtain ⟨h1, h2⟩ := not_or.1 hbad
    exact exec_of_bad_width (i := .encMrs) rfl h1 h2

/-- Settles O18: the width picks the layout, or raises ArgumentError before the length of that layout is checked. -/
theorem motorReadResponseIsDecoded : Obligations.MotorReadResponseIsDecoded := by
  refine ⟨rfl, fun s regval mode pos force power temp volt errs _ hwidth hlen hrx => ?_,
    fun s regval mode pos force power temp volt errs _ hwidth hlen hrx => ?_, fun s _ h1 h2 => ?_,
    fun s _ hshort => ?_⟩
  · have hw : opWidth s.inp = 1 := (opWidth_eq_iff s.inp 1 (by decide)).2 hwidth
    exact exec_of_body_ok (i := .decMrs) (bodyDecMrs_of_payload_width_one hw hlen hrx)
  · have hw : opWidth s.inp = 2 := (opWidth_eq_iff s.inp 2 (by decide)).2 hwidth
    exact exec_of_body_ok (i := .decMrs) (bodyDecMrs_of_payload_width_two hw hlen hrx)
  · exact exec_of_bad_width (i := .decMrs) rfl h1 h2
  · obtain ⟨n, hn, hlen⟩ := expectedSize_decMrs_of_short hshort
    exact exec_of_short hn hlen

end Sys2Proof.Machine
end

section
/-! SUPPORT. What ENC.MWS writes at a legal width (44_motor_write_stream.md R180), which value of a data word the
actuator takes (R182), and what DEC.MWS answers on a payload that starts with mode and tail (30_encoding.md R84). -/

namespace Sys2Proof.Machine

/-! ### Requests -/

/-- R180: the width check is the only one of ENC.MWS, and the data goes out whole at either width. -/
theorem bodyEncMws_of_legal_width {inp : Inputs} (hw : opWidth inp = 1 ∨ opWidth inp = 2) :
    bodyEncMws inp = .ok (memWrite2 0 (opAddr inp) ++ memWrite1 2 (opWidth inp) ++ memWrite4 3 (opWriteData inp)
      ++ [.txFc 105, .txLen 7]) := by
  rw [bodyEncMws, checkWidth_eq_ok hw]
  rfl

/-- R180: what ENC.MWS leaves at a legal width. -/
theorem exec_encMws_of_legal_width {s : State} (hw : uint s.inp.args[1] % 256 = 1 ∨ uint s.inp.args[1] % 256 = 2) :
    ∃ tx : Vector Byte 8,
      exec .encMws s = .next { s with
        status := 0x4003#32
        res := { Results.cleared with txFc := 105, txLen := 7, tx := tx } } ∧
      tx.toList = beBytes16 (opAddr s.inp) ++ [opWidth s.inp] ++ beBytes32 (opWriteData s.inp) ++ [0] :=
  exec_encoder_of_body_ok (i := .encMws) (by decide)
    (bodyEncMws_of_legal_width ((opWidth_legal_iff s.inp).2 hw))

/-- R182: either half of a word made of one value twice is that value. -/
theorem widthOneValue_append_self (half : Config.WriteHalf) (v : Half) : widthOneValue half (v ++ v : Word) = v := by
  cases half with
  | highUsed => exact BitVec.extractLsb'_append_eq_left
  | lowUsed => exact BitVec.extractLsb'_append_eq_right

/-! ### Responses of function code 105 -/

section
variable {mode : Byte} {pos force : Word} {power : Half} {temp : Byte} {volt errs : Half}

/-- R84: the response of function code 105 is the mode and then the tail, at offset 1. -/
theorem bodyDecMws_of_payload {inp : Inputs} (hlen : 16 ≤ uint inp.rxLen)
    (hrx : rxHolds inp ([mode] ++ tailBytes pos force power temp volt errs)) :
    bodyDecMws inp = .ok [.rMode mode,
      .rPos pos, .rForce force, .rPower power, .rTemp temp, .rVolt volt, .rErrs errs] := by
  rw [bodyDecMws, checkLen_eq_ok hlen, memRead1_eq_field (off := 0) (pre := []) (v := mode) hrx rfl rfl,
    decodeTail_eq_ok (b := 1) (pre := [mode]) pos force power temp volt errs hrx rfl rfl]
  rfl

end

end Sys2Proof.Machine
end

section
/-! PROOFS. MotorWriteStream, function code 105 (44_motor_write_stream.md): O12, O14, O19. -/

namespace Sys2Proof.Machine

/-- Settles O12: a legal width lets the encoder leave its request, and any other raises ArgumentError. -/
theorem motorWriteRequestIsEncoded : Obligations.MotorWriteRequestIsEncoded := by
  refine ⟨rfl, fun s _ => ⟨exec_encMws_of_legal_width, fun hbad => ?_⟩⟩
  obtain ⟨h1, h2⟩ := not_or.1 hbad
  exact exec_of_bad_width (i := .encMws) rfl h1 h2

/-- Settles O14: the data field of the request is ARG2 (O13), and both halves of ARG2 are the value. -/
theorem bothHalvesServeEitherReading : Obligations.BothHalvesServeEitherReading := by
  intro s v _ hwidth hdata
  obtain ⟨tx, hexec, -⟩ := exec_encMws_of_legal_width (.inl hwidth)
  have hok : statusOk 0x4003#32 = true := by decide
  obtain ⟨-, -, -, encMws_readBack⟩ := requestsReadBackTheOperands
  obtain ⟨-, -, hfield⟩ := encMws_readBack s _ hexec hok
  refine ⟨_, hexec, hok, ?_⟩
  rw [hfield, hdata, widthOneValue_append_self]

/-- Settles O19: CheckLen of 16 passes and the mode and the tail are read, or it fails before any read. -/
theorem motorWriteResponseIsDecoded : Obligations.MotorWriteResponseIsDecoded :=
  ⟨rfl, fun _ _ _ _ _ _ _ _ hlen hrx => exec_of_body_ok (i := .decMws) (bodyDecMws_of_payload hlen hrx),
    fun _ hshort => exec_of_short (i := .decMws) rfl hshort⟩

end Sys2Proof.Machine
end

section
/-! SUPPORT. The error a command reports, from the body it runs (60_exceptions.md R200, R204): the checks come first, and
what follows them raises nothing. -/

namespace Sys2Proof.Machine

/-! ### ERR as the body's answer -/

/-- The code that the frame of R74 puts into ERR for a body's answer (R200). On a fault of the model there is no STATUS
to report it. -/
def bodyErr : Body → BitVec 4
  | .ok _ => 0
  | .error (.raised e) => errorCode e
  | .error (.fault _) => 0

theorem bodyErr_of_raised {body : Body} {e : CmdError} (h : body = .error (.raised e)) : bodyErr body = errorCode e := by
  rw [h, bodyErr]

/-- ERR after an issued OP hangs on its body alone. -/
theorem statusErr_of_issue {op : Byte} {s t : State} (h : issue op s = .next t) :
    statusErr t.status = bodyErr (issuedBody op s.inp) := by
  rw [issue_eq_commandFrame] at h
  rcases commandFrame_eq_next h with ⟨out, hbody, rfl⟩ | ⟨e, hbody, rfl⟩
  · rw [complete_status, statusErr_statusWord, hbody, bodyErr]
  · rw [raiseError_status, statusErr_statusWord, bodyErr_of_raised hbody]

theorem issuedBody_of_decodeOp_ok {op : Byte} {i : Instr} (h : decodeOp op = .ok i) (inp : Inputs) :
    issuedBody op inp = bodyOf i inp := by
  rw [issuedBody, h]

theorem issuedBody_of_decodeOp_error {op : Byte} {d : DecodeReject} (h : decodeOp op = .error d) (inp : Inputs) :
    issuedBody op inp = .error (.raised (.illegalOperation op)) := by
  rw [issuedBody, h]

/-! ### The error of each failed check, and none after the checks -/

/-- R25: what reads RX cells raises no error, it answers or faults. -/
theorem bodyErr_of_reads {inp : Inputs} {off n : Nat} {body : Body} (h : Reads inp off n body) : bodyErr body = 0 := by
  rcases h with ⟨_, out, rfl⟩ | ⟨_, rfl⟩ <;> rfl

/-- R204: an operation with no expected size can fail on its width only. -/
theorem bodyErr_of_no_size {i : Instr} {inp : Inputs} (hn : expectedSize i (opWidth inp) = none)
    (hwidth : checksWidth i = true → opWidth inp = 1 ∨ opWidth inp = 2) : bodyErr (bodyOf i inp) = 0 := by
  cases i with
  | packSplit | unpackS32 | unpackU32 | encHss | encMcs => rfl
  | encMrs => rw [bodyOf, bodyEncMrs_of_legal_width (hwidth rfl), bodyErr]
  | encMws => rw [bodyOf, bodyEncMws_of_legal_width (hwidth rfl), bodyErr]
  | decMrs => rcases hwidth rfl with hw | hw <;> simp [expectedSize, hw] at hn
  | decHssU8 | decHssU32 | decMcs | decMws => cases hn

end Sys2Proof.Machine
end

section
/-! PROOFS. Errors (60_exceptions.md R201, R203, R204): O24, O25, O29. -/

namespace Sys2Proof.Machine

/-- Settles O24, by the checks in their order: each one that fails raises its own error, and past all of them the body
raises none. -/
theorem errorIsChosenByPriority : Obligations.ErrorIsChosenByPriority := by
  intro op s t h
  rw [statusErr_of_issue h]
  cases hd : decodeOp op with
  | error d => exact bodyErr_of_raised (issuedBody_of_decodeOp_error hd s.inp)
  | ok i =>
    rw [issuedBody_of_decodeOp_ok hd]
    dsimp only
    split_ifs with hbad
    · obtain ⟨hi, h1, h2⟩ := hbad
      obtain ⟨hw1, hw2⟩ := not_or.1 (mt (opWidth_legal_iff s.inp).1 (not_or.2 ⟨h1, h2⟩))
      exact bodyErr_of_raised (bodyOf_of_bad_width hi hw1 hw2)
    · cases hn : expectedSize i (opWidth s.inp) with
      | some n =>
        dsimp only
        split_ifs with hshort
        · exact bodyErr_of_raised (bodyOf_of_short hn hshort)
        · exact bodyErr_of_reads (bodyOf_reads hn (Nat.le_of_not_lt hshort))
      | none =>
        refine bodyErr_of_no_size hn fun hi => (opWidth_legal_iff s.inp).2 ?_
        by_contra hwidth
        exact hbad ⟨hi, not_or.1 hwidth⟩

/-- Settles O25: the width check comes before anything else the three bodies do. -/
theorem badWidthIsAnArgumentError : Obligations.BadWidthIsAnArgumentError :=
  fun _ _ hi _ h1 h2 => exec_of_bad_width hi h1 h2

/-- Settles O29: of the four outcomes that the priority leaves (O24), ERR is 1 only where the expected size is above
RX_LEN; a command keeps the inputs (O34), and LASTOP is its OP (O26). -/
theorem expectedSizeIsRecoverable : Obligations.ExpectedSizeIsRecoverable := by
  intro op s t h herr
  have hinp : t.inp = s.inp := by rw [issueChangesOnlyStatusAndResults op s t h]
  obtain ⟨_, _, _, _, _, _, hlast, _⟩ := statusAfterEveryCommand op s t h
  have hprio := errorIsChosenByPriority op s t h
  rw [herr] at hprio
  rw [hinp, hlast]
  refine ⟨rfl, ?_⟩
  cases hd : decodeOp op with
  | error d => simp [hd] at hprio
  | ok i =>
    cases hn : expectedSize i (opWidth s.inp) with
    | none =>
      simp only [hd, hn] at hprio
      split_ifs at hprio <;> cases hprio
    | some n =>
      simp only [hd, hn] at hprio
      split_ifs at hprio with hbad hshort
      · cases hprio
      · exact ⟨i, n, rfl, hn, hshort⟩
      · cases hprio

end Sys2Proof.Machine
end

section
/-! SUPPORT. That a command comes to an end (70_reset_and_hazards.md R232), and what steps and runs take from the
pending events (R247; 20_memory.md R62). -/

namespace Sys2Proof.Machine

/-! ### A command answers, unless its body faults -/

/-- R232: the one thing that keeps a command from answering is an unwritten input (log 2). -/
theorem exec_next_of_ne_fault {i : Instr} {s : State} (h : exec i s ≠ .fault .unwrittenInput) :
    ∃ t, exec i s = .next t := by
  rw [exec_eq_commandFrame] at h ⊢
  rcases commandFrame_cases (opcode i) (bodyOf i s.inp) s with ⟨_, _, hf⟩ | ⟨_, _, hf⟩ | ⟨f, _, hf⟩
  · exact ⟨_, hf⟩
  · exact ⟨_, hf⟩
  · cases f
    exact absurd hf h

/-- R86: an operation that expects no payload, or whose width is illegal, reads no RX cell and always answers. -/
theorem exec_next_of_no_size {i : Instr} {s : State} (hn : expectedSize i (opWidth s.inp) = none) :
    ∃ t, exec i s = .next t := by
  by_cases hbad : checksWidth i = true ∧ ¬ (opWidth s.inp = 1 ∨ opWidth s.inp = 2)
  · obtain ⟨hi, hw⟩ := hbad
    obtain ⟨h1, h2⟩ := not_or.1 hw
    exact ⟨_, exec_of_body_raised (bodyOf_of_bad_width hi h1 h2)⟩
  · have hwidth (hi : checksWidth i = true) := not_not.1 (not_and.1 hbad hi)
    cases i with
    | packSplit | unpackS32 | unpackU32 | encHss | encMcs => exact ⟨_, exec_of_body_ok rfl⟩
    | encMrs => exact ⟨_, exec_of_body_ok (bodyEncMrs_of_legal_width (hwidth rfl))⟩
    | encMws => exact ⟨_, exec_of_body_ok (bodyEncMws_of_legal_width (hwidth rfl))⟩
    | decMrs => rcases hwidth rfl with hw | hw <;> simp [expectedSize, hw] at hn
    | decHssU8 | decHssU32 | decMcs | decMws => cases hn

/-! ### The pending events -/

/-- R62: a host operation leaves what the host has still to issue. -/
theorem perform_pending {o : HostOp} {s t : State} (h : perform o s = .next t) : t.pending = s.pending := by
  cases o with
  | writeArg i v =>
    obtain rfl := Host.Outcome.next.inj h
    exact hostWriteArg_pending i v s
  | writeRx i b =>
    obtain rfl := Host.Outcome.next.inj h
    exact hostWriteRx_pending i b s
  | writeRxLen n =>
    obtain rfl := Host.Outcome.next.inj h
    exact hostWriteRxLen_pending n s
  | issue op => rw [issueChangesOnlyStatusAndResults op s t h]
  | read r =>
    rcases hostRead_cases r s with ⟨v, _, hread⟩ | ⟨_, _, _, hread⟩
    · obtain rfl := Host.Outcome.next.inj (hread.symm.trans h)
      rfl
    · cases hread.symm.trans h

/-- Nor does a platform reset take a pending event (log 5). -/
theorem occur_pending {e : Event} {s t : State} (h : occur e s = .next t) : t.pending = s.pending := by
  cases e with
  | host o => exact perform_pending h
  | reset =>
    obtain rfl := Host.Outcome.next.inj h
    exact platformReset_pending s

/-- R240: a step takes the first pending event, and the event itself takes no other. -/
theorem step_pending {s t : State} (h : step s = .next t) : t.pending = s.pending.tail := by
  rcases step_cases h with ⟨hnil, rfl⟩ | ⟨e, rest, hcons, hoccur⟩
  · rw [hnil, List.tail_nil]
  · rw [hcons, List.tail_cons]
    exact occur_pending hoccur

/-- A run that answers a next state did so at its first step and in the run after it. -/
theorem run_succ_eq_next {k : Nat} {s t : State} (h : Host.Core.run Sys2Proof.core (k + 1) s = .next t) :
    ∃ u, step s = .next u ∧ Host.Core.run Sys2Proof.core k u = .next t := by
  simp only [Host.Core.run] at h
  split at h
  next u hstep => exact ⟨u, hstep, h⟩
  next => cases h
  next => cases h

/-- A run of `k` steps takes the first `k` pending events. -/
theorem run_pending {k : Nat} {s t : State} (h : Host.Core.run Sys2Proof.core k s = .next t) :
    t.pending = s.pending.drop k := by
  induction k generalizing s with
  | zero =>
    obtain rfl := Host.Outcome.next.inj h
    rw [List.drop_zero]
  | succ k ih =>
    obtain ⟨u, hstep, hrun⟩ := run_succ_eq_next h
    rw [ih hrun, step_pending hstep, List.drop_tail]

end Sys2Proof.Machine
end

section
/-! PROOFS. Reset and hazards (70_reset_and_hazards.md R232, R247): O35, O48. -/

namespace Sys2Proof.Machine

/-- Settles O35, by the payload the operation expects: with none, or one that RX_LEN does not reach, no RX cell is read,
and the cells of one that RX_LEN reaches are written, so that the decode does not stop (O36). -/
theorem commandsRunOnWrittenInputs : Obligations.CommandsRunOnWrittenInputs := by
  rintro i s ⟨-, hrx⟩
  cases hn : expectedSize i (opWidth s.inp) with
  | none => exact exec_next_of_no_size hn
  | some n =>
    rcases Nat.lt_or_ge (uint s.inp.rxLen) n with hshort | hlen
    · exact ⟨_, exec_of_short hn hshort⟩
    · refine exec_next_of_ne_fault fun hfault => ?_
      exact (decodeStopsExactlyOnUnwrittenCells i s n hn hlen).1 hfault (hrx n hn hlen)

/-- Settles O48: a step takes the first pending event, so a run takes as many as it has steps. -/
theorem runsEndAfterTheLastOperation : Obligations.RunsEndAfterTheLastOperation := by
  refine ⟨fun _ _ => step_pending, fun s t h => ?_⟩
  rw [run_pending h, List.drop_length]

end Sys2Proof.Machine
end

section
/-! SUPPORT. Decoding a byte sequence (30_encoding.md R70), and what a reset, a host operation and a command make of the
invariant (10_state.md R25 to R31, 60_exceptions.md R200). -/

namespace Sys2Proof.Machine

/-! ### Decoding -/

/-- R70: the first byte alone selects the operation, and the bytes after it are left over. -/
theorem decode_cons_eq_ok_iff {op : Byte} {tail rest : List Byte} {i : Instr} :
    decode (op :: tail) = .ok (i, rest) ↔ decodeOp op = .ok i ∧ tail = rest := by
  rw [decode]
  cases decodeOp op with
  | ok j => simp
  | error e => simp

theorem encode_append_eq_cons (i : Instr) (rest : List Byte) : encode i ++ rest = opcode i :: rest := rfl

/-- R74: an OP of the table runs its operation. -/
theorem issue_of_decodeOp_ok {op : Byte} {i : Instr} (h : decodeOp op = .ok i) (s : State) : issue op s = exec i s := by
  rw [issue, h]

/-! ### Reset -/

/-- R230: a host reads the same after a platform reset as at reset, whatever the block held. -/
theorem readReg_platformReset (s : State) (r : HostReg) : readReg (platformReset s) r = readReg State.reset r :=
  readReg_congr rfl rfl rfl r

/-! ### The ERR codes of each operation -/

/-- R85: an expected size belongs to a decode. -/
theorem takesRx_of_expectedSize {i : Instr} {w : Byte} {n : Nat} (h : expectedSize i w = some n) :
    i.takesRx = true := by
  cases i with
  | decHssU8 | decHssU32 | decMcs | decMrs | decMws => rfl
  | packSplit | unpackS32 | unpackU32 | encHss | encMcs | encMrs | encMws => cases h

/-- R200: a command ends with an ERR code that its OP can end with, as the priority of the errors (O24) chooses it. -/
theorem errorPossible_of_issue {op : Byte} {s t : State} (h : issue op s = .next t) :
    errorPossible op (statusErr t.status) := by
  rw [errorIsChosenByPriority op s t h, errorPossible]
  cases decodeOp op with
  | error d => rfl
  | ok i =>
    dsimp only
    split_ifs with hbad
    · obtain ⟨hwidth, _, _⟩ := hbad
      exact .inr (.inr ⟨rfl, hwidth⟩)
    · cases hn : expectedSize i (opWidth s.inp) with
      | none => exact .inl rfl
      | some n =>
        dsimp only
        split_ifs with hshort
        · exact .inr (.inl ⟨rfl, takesRx_of_expectedSize hn⟩)
        · exact .inl rfl

/-! ### The invariant -/

/-- R34: with STATUS 0 and every result cleared there is no success that a result could follow. -/
theorem inv_of_cleared {s : State} (hrx : Memory.wf s.inp.rx) (hstatus : s.status = 0)
    (hres : s.res = Results.cleared) : Inv s where
  rx_canonical := hrx
  status_legal := .inl hstatus
  reserved_zero := by rw [hstatus]; decide
  results_follow r _ := by rw [hres]
  request_follows _ hok _ := by
    rw [hstatus] at hok
    cases hok

/-- The invariant speaks of RX, STATUS and the results alone, and of RX only that it is canonical. -/
theorem Inv.of_report_kept {s t : State} (hs : Inv s) (hrx : Memory.wf t.inp.rx) (hstatus : t.status = s.status)
    (hres : t.res = s.res) : Inv t where
  rx_canonical := hrx
  status_legal := hstatus ▸ hs.status_legal
  reserved_zero := hstatus ▸ hs.reserved_zero
  results_follow r hr := by
    rw [resultHolds, hstatus] at hr
    rw [hres]
    exact hs.results_follow r hr
  request_follows i hok hi := by
    rw [hstatus] at hok hi
    rw [hres]
    exact hs.request_follows i hok hi

/-- R27, R28, R31: whatever the block reported before, a command leaves a report that meets the invariant (its results
by O27's lemma, its request by O28), and it keeps RX (O34). -/
theorem inv_of_issue {op : Byte} {s t : State} (hrx : Memory.wf s.inp.rx) (h : issue op s = .next t) : Inv t := by
  obtain ⟨err, _, hstatus⟩ := issue_status h
  have hinp : t.inp = s.inp := by rw [issueChangesOnlyStatusAndResults op s t h]
  have hpossible := errorPossible_of_issue h
  obtain ⟨hrequest, _, _⟩ := requestRegistersFollowTheCommand op s t h
  rw [hstatus, statusErr_statusWord] at hpossible
  refine ⟨hinp ▸ hrx, .inr ⟨op, err, hpossible, hstatus⟩, ?_, fun r => issue_results_follow h, fun i hok hi => ?_⟩
  · rw [hstatus]
    exact ⟨statusReservedLow_statusWord op err, statusReservedHigh_statusWord op err⟩
  · rw [hstatus, statusLastOp_statusWord] at hi
    exact hrequest i hi hok

theorem inv_platformReset (s : State) : Inv (platformReset s) :=
  inv_of_cleared Memory.wf_nil (platformReset_status s) (platformReset_res s)

/-- R60: the host's reads and writes keep the report, and a write to RX keeps its canonical form. -/
theorem inv_of_perform {o : HostOp} {s t : State} (hs : Inv s) (h : perform o s = .next t) : Inv t := by
  cases o with
  | writeArg i v =>
    obtain rfl := Host.Outcome.next.inj h
    exact hs.of_report_kept hs.rx_canonical (hostWriteArg_status i v s) (hostWriteArg_res i v s)
  | writeRx i b =>
    obtain rfl := Host.Outcome.next.inj h
    have hrx : Memory.wf (hostWriteRx i b s).inp.rx := Memory.write_wf b i.isLt hs.rx_canonical
    exact hs.of_report_kept hrx (hostWriteRx_status i b s) (hostWriteRx_res i b s)
  | writeRxLen n =>
    obtain rfl := Host.Outcome.next.inj h
    exact hs.of_report_kept hs.rx_canonical (hostWriteRxLen_status n s) (hostWriteRxLen_res n s)
  | issue op => exact inv_of_issue hs.rx_canonical h
  | read r =>
    rcases hostRead_cases r s with ⟨v, _, hread⟩ | ⟨_, _, _, hread⟩
    · obtain rfl := Host.Outcome.next.inj (hread.symm.trans h)
      exact hs.of_report_kept hs.rx_canonical rfl rfl
    · cases hread.symm.trans h

theorem inv_of_occur {e : Event} {s t : State} (hs : Inv s) (h : occur e s = .next t) : Inv t := by
  cases e with
  | host o => exact inv_of_perform hs h
  | reset =>
    obtain rfl := Host.Outcome.next.inj h
    exact inv_platformReset s

end Sys2Proof.Machine
end

section
/-! PROOFS. The OP byte (30_encoding.md R70, R71, R74): O1, O2, O3. Reset and the invariant (10_state.md R34,
70_reset_and_hazards.md R230): O44, O45, O46, O47. -/

namespace Sys2Proof.Machine

/-- Settles O2: the first byte is the OP of the operation (R71), and the other bytes are the rest. -/
theorem decodesExactlyTheEncodings : Obligations.DecodesExactlyTheEncodings := by
  intro bs i rest
  rw [encode_append_eq_cons]
  cases bs with
  | nil => exact iff_of_false nofun nofun
  | cons op tail => rw [decode_cons_eq_ok_iff, decodeOp_eq_ok_iff, List.cons.injEq]

/-- Settles O1: each of the five is the encoding of its operation followed by what is left over, and so decodes (O2). -/
theorem sampleOpBytesDecode : Obligations.SampleOpBytesDecode := by
  have decodes {bs : List Byte} {i : Instr} {rest : List Byte} := (decodesExactlyTheEncodings bs i rest).2
  exact ⟨decodes rfl, decodes rfl, decodes rfl, decodes rfl, decodes rfl⟩

/-- Settles O3: the step carries out the pending `HostIssue`, which runs the operation of its OP. -/
theorem stepRunsTheIssuedCommand : Obligations.StepRunsTheIssuedCommand := by
  intro s op i rest hpending hdecode _
  obtain ⟨hop, _⟩ := decode_cons_eq_ok_iff.1 hdecode
  rw [step_of_pending hpending]
  exact issue_of_decodeOp_ok hop _

/-- Settles O44: RX lists no cell at reset, and the results are the cleared ones. -/
theorem resetClearsStatusAndResults : Obligations.ResetClearsStatusAndResults :=
  ⟨rfl, rfl, fun _ => rfl, readResult_cleared⟩

/-- Settles O45: the step is the platform reset. -/
theorem platformResetRestoresTheBlock : Obligations.PlatformResetRestoresTheBlock := fun _ _ hpending =>
  ⟨_, step_of_pending hpending, rfl, rfl, rfl, readReg_platformReset _⟩

/-- Settles O46: at reset RX is empty, STATUS 0 and every result cleared. -/
theorem resetMeetsTheInvariant : Obligations.ResetMeetsTheInvariant := inv_of_cleared Memory.wf_nil rfl rfl

/-- Settles O47: a step takes a pending event, of which the invariant does not speak, and each event keeps it. -/
theorem everyStepKeepsTheInvariant : Obligations.EveryStepKeepsTheInvariant := by
  intro s t hs h
  rcases step_cases h with ⟨_, rfl⟩ | ⟨e, rest, _, hoccur⟩
  · exact hs
  · have htaken : Inv { s with pending := rest } := hs.of_report_kept hs.rx_canonical rfl rfl
    exact inv_of_occur htaken hoccur

end Sys2Proof.Machine
end
